-- ==== Sys2Proof/Word.lean ====
section
/-! DEFINITION. The word types of the TOTP-HMAC core: 32-bit registers (R20, `BUS_WIDTH` of R8), bytes of the byte
arrays (R84) and 64-bit unsigned quantities (R86). -/

namespace Sys2Proof

/-- One byte of a byte array (R84). -/
abbrev Byte := BitVec 8

/-- One register, as the host reads and writes it (R20). -/
abbrev Word := BitVec 32

/-- A 64-bit unsigned quantity: `COUNTER`, `TIME`, `LASTCTR` (R86). -/
abbrev Dword := BitVec 64

end Sys2Proof
end

