-- ==== Sys2Proof/Config.lean ====
section
/-! DEFINITION. What an implementation or the platform fixes (R8), and the open parameters of `spec/92_eei_decisions.md`.
An `opaque` constant has no body: no proof can use a value of it. -/

namespace Sys2Proof

/-- `WINDOW_BYTES` of R8: the size of the register window. -/
def Config.windowBytes : Nat := 256

/-- The hash block size `B` of both hashes, in bytes (R8, R110). -/
def Config.blockBytes : Nat := 64

/-- The length of the candidate and code buffers, in bytes (R8, R37, R43). -/
def Config.codeBufferBytes : Nat := 12

/-- The open parameter `BASE` (R8, R60, U6), counted in 256-byte units because it is 256-byte aligned.
DESIGN CHOICE (log 7): host addresses are natural numbers. -/
opaque Config.basePage : Nat

/-- `BASE`: the host address of the register at offset 0 (R60). -/
def Config.base : Nat := Config.windowBytes * Config.basePage

/-- The polarity and synchronisation of the reset input (R250, U3). -/
structure ResetStyle where
  synchronous : Bool
  activeHigh  : Bool
  deriving DecidableEq, Repr, Inhabited

/-- The open parameter `RESET_STYLE` (R250): no rule depends on it (log 18). -/
opaque Config.resetStyle : ResetStyle

/-- The open parameter `IRQ_LINE` (R230): which line of the platform the output `irq` drives; no rule depends on it
(log 18). -/
opaque Config.irqLine : Nat

/-- Whether a character other than the four that R200 names counts as whitespace is not said (U1).
It is asked only of characters that are not ASCII graphic characters (log 14). -/
opaque Config.otherWhitespace : Char → Bool

end Sys2Proof
end

