-- ==== Sys2Proof/Syntax.lean ====
section
/-! DEFINITION. The syntax of the machine: the commands (one constructor per row of `spec/opcode_table.json`), the
registers of R20 by name, host accesses (R61), the turns the three agents of R10 can take, and the host-sequence
statements of R87 and R88. -/

namespace Sys2Proof

/-- The command words of R81. A command has no operand of its own: "every operand comes from the operand registers"
(R80). -/
inductive Instr where
  | gen
  | verify
  | zeroize
  deriving DecidableEq, Repr, Inhabited

/-- The registers of R20 by name. The reserved offsets of R45 have none. -/
inductive Reg where
  | id | version | ctrl | cmd | status | keylen | period | candlen
  | counterHi | counterLo | timeHi | timeLo | lastctrHi | lastctrLo
  | trunc | code | remain
  | codeAscii (i : Fin 3)
  | cand (i : Fin 3)
  | digest (i : Fin 8)
  | key (i : Fin 16)
  deriving DecidableEq, Repr

/-- What a host access does (R61): `MemRead`, or `MemWrite` of a value. -/
inductive AccessKind where
  | read
  | write (v : Word)
  deriving DecidableEq, Repr

/-- Where a host access goes: an offset in the register window (the notation of R87), or a host address (R60). -/
inductive Target where
  | offset (off : Nat)
  | address (addr : Nat)
  deriving DecidableEq, Repr

/-- One host access (R61): its target, its width in bytes, and what it does. -/
structure Access where
  target : Target
  width  : Nat
  kind   : AccessKind
  deriving DecidableEq, Repr

/-- One turn of one of the three agents of R10. -/
inductive Input where
  /-- The host: one bus access (R61). -/
  | access (a : Access)
  /-- The host: the pseudo-statement `POLL` of R88, a loop of `RD STATUS` until `BUSY` reads 0. The schedule lets it
  read `BUSY = 1` `busyReads` times before the sequencer takes its turn (log 9). -/
  | poll (busyReads : Nat)
  /-- The sequencer: its one step (R162), enabled only while a command is pending. -/
  | sequencer
  /-- The reset input is asserted (R250). -/
  | resetAssert
  /-- The reset input is released (R250). -/
  | resetRelease
  deriving DecidableEq, Repr

/-- The two 64-bit operands that `WR64` names (R88). -/
inductive Wide where
  | counter
  | time
  deriving DecidableEq, Repr

/-- The host-sequence statements of R87 and the pseudo-statements of R88. A register is given by its offset, as the
encoding of a statement has it. -/
inductive Stmt where
  | wr (off : Nat) (v : Word)
  | rd (off : Nat)
  | wr64 (name : Wide) (v : Dword)
  | ldkey (bytes : List Byte)
  | ldcand (candidate : List Char)
  | poll (busyReads : Nat)
  | cmd (i : Instr)
  deriving DecidableEq, Repr

end Sys2Proof
end

