-- ==== Sys2Proof/WellFormed.lean ====
section
/-! DEFINITION. Which terms of the syntax are well formed: which host accesses the bus performs (R61, U12), which
host-sequence statements R87 and R88 admit. -/

namespace Sys2Proof

/-- Every command is well formed: it has no operand (R80). -/
def Instr.wellFormed : Instr → Bool
  | .gen => true
  | .verify => true
  | .zeroize => true

/-- An offset of the window at which a 32-bit access is aligned (R60, R61). -/
def offsetWellFormed (off : Nat) : Bool :=
  off < Config.windowBytes && off % 4 == 0

/-- A target inside the window, aligned (R60, R61). -/
def Target.wellFormed : Target → Bool
  | .offset off => offsetWellFormed off
  | .address addr => Config.base ≤ addr && offsetWellFormed (addr - Config.base)

/-- "The host's only accesses are `MemRead(off, 4)` and `MemWrite(off, 4, v)` with `off mod 4 = 0`" (R61). -/
def Access.wellFormed (a : Access) : Bool :=
  a.width == 4 && a.target.wellFormed

/-- A turn is well formed when the bus performs its access. -/
def Input.wellFormed : Input → Bool
  | .access a => a.wellFormed
  | .poll _ => true
  | .sequencer => true
  | .resetAssert => true
  | .resetRelease => true

/-- R87 and R88: a statement's offset is one the bus serves, and `LDKEY` loads 1 to 64 bytes. R88 bounds `n` by 64 alone and
R202 gives `1 <= n <= 64`; that `LDKEY` with no bytes is not well-formed is the model's choice (log 27). -/
def Stmt.wellFormed : Stmt → Bool
  | .wr off _ => offsetWellFormed off
  | .rd off => offsetWellFormed off
  | .wr64 _ _ => true
  | .ldkey bytes => 1 ≤ bytes.length && bytes.length ≤ Config.blockBytes
  | .ldcand _ => true
  | .poll _ => true
  | .cmd i => i.wellFormed

end Sys2Proof
end

