-- ==== Sys2Proof/Decode.lean ====
section
/-! DEFINITION. The decoder of command words (R80 to R83) with its encoder, and the decoder of window offsets (R20,
R45) with its encoder. -/

namespace Sys2Proof

/-- Why a word is no command: its `OP` is `0x0` or `0x4`..`0xF` (R82). -/
inductive DecodeError where
  | illegalOp (op : BitVec 4)
  deriving DecidableEq, Repr

/-- The field `OP = v[3:0]` (R80). -/
def opField (v : Word) : BitVec 4 := v.extractLsb' 0 4

/-- The decoder "reads `OP = v[3:0]` of the written value `v` and nothing else" (R80); the map is R81, complete. -/
def decode (v : Word) : Except DecodeError Instr :=
  match opField v with
  | 0x1#4 => .ok .gen
  | 0x2#4 => .ok .verify
  | 0x3#4 => .ok .zeroize
  | op => .error (.illegalOp op)

/-- The value of `OP` of a command (R81). -/
def opcode : Instr → BitVec 4
  | .gen => 0x1#4
  | .verify => 0x2#4
  | .zeroize => 0x3#4

/-- The words of a command: bits 31:4 take "any value; not decoded, not stored" (R80), so a command has one word for
each `ignored`. -/
def encode (i : Instr) (ignored : BitVec 28 := 0#28) : Word :=
  (ignored.setWidth 32 <<< 4) ||| (opcode i).setWidth 32

/-- The command word of a table row: `nbits` bits, bit 0 least significant, every bit above `nbits` 0. -/
def tableWord (nbits w : Nat) : Word := BitVec.ofNat 32 (w % 2 ^ nbits)

/-- The decoder, asked in the opcode table's numbering: a command is one 32-bit word (R83), so the table's number is
the word itself (log 21). -/
def decodeTableWord (nbits w : Nat) : Option Instr :=
  match decode (tableWord nbits w) with
  | .ok i => some i
  | .error _ => none

/-- The offset of a register in the window (R20). -/
def Reg.offset : Reg → Nat
  | .id => 0x00
  | .version => 0x04
  | .ctrl => 0x08
  | .cmd => 0x0C
  | .status => 0x10
  | .keylen => 0x14
  | .period => 0x18
  | .candlen => 0x1C
  | .counterHi => 0x20
  | .counterLo => 0x24
  | .timeHi => 0x28
  | .timeLo => 0x2C
  | .lastctrHi => 0x30
  | .lastctrLo => 0x34
  | .trunc => 0x38
  | .code => 0x3C
  | .remain => 0x40
  | .codeAscii i => 0x44 + 4 * i.val
  | .cand i => 0x50 + 4 * i.val
  | .digest i => 0x60 + 4 * i.val
  | .key i => 0x80 + 4 * i.val

/-- The register at an aligned offset of the window (R20), or none at a reserved offset (R45: `0x5C`, and `0xC0` to
`0xFC`). -/
def regAt (off : Nat) : Option Reg :=
  match off / 4 with
  | 0x00 => some .id
  | 0x01 => some .version
  | 0x02 => some .ctrl
  | 0x03 => some .cmd
  | 0x04 => some .status
  | 0x05 => some .keylen
  | 0x06 => some .period
  | 0x07 => some .candlen
  | 0x08 => some .counterHi
  | 0x09 => some .counterLo
  | 0x0A => some .timeHi
  | 0x0B => some .timeLo
  | 0x0C => some .lastctrHi
  | 0x0D => some .lastctrLo
  | 0x0E => some .trunc
  | 0x0F => some .code
  | 0x10 => some .remain
  | 0x11 => some (.codeAscii 0)
  | 0x12 => some (.codeAscii 1)
  | 0x13 => some (.codeAscii 2)
  | 0x14 => some (.cand 0)
  | 0x15 => some (.cand 1)
  | 0x16 => some (.cand 2)
  | 0x17 => none
  | n =>
    if n < 0x20 then some (.digest ⟨n % 8, Nat.mod_lt _ (by decide)⟩)
    else if n < 0x30 then some (.key ⟨n % 16, Nat.mod_lt _ (by decide)⟩)
    else none

/-- The offset in the window that a target reaches: `BASE + off` reaches `off` for `0 <= off < 256` (R60); outside the
window there is none. -/
def Target.windowOffset : Target → Option Nat
  | .offset off => if off < Config.windowBytes then some off else none
  | .address addr =>
    if Config.base ≤ addr ∧ addr < Config.base + Config.windowBytes then some (addr - Config.base) else none

end Sys2Proof
end

