-- ==== Sys2Proof/Machine/State.lean ====
section
/-! DEFINITION. The state of the TOTP-HMAC core (`spec/10_state.md`) as plain data, its reset value (R252), and the
reasons a step can stop. A register whose fields the spec writes one by one is held as its fields; its word is
composed and taken apart in Machine/Flags.lean. -/

namespace Sys2Proof.Machine

/-- `CTRL.ALG`: the hash of the HMAC (R24). -/
inductive HashAlg where
  | sha1
  | sha256
  deriving DecidableEq, Repr, Inhabited

/-- `CTRL.CSRC`: where a command takes its counter (R25). -/
inductive CounterSource where
  | counter
  | time
  deriving DecidableEq, Repr, Inhabited

/-- The stored fields of `CTRL` (R23); bits 3 and 31:16 have no storage (R29). -/
structure Ctrl where
  alg    : HashAlg
  csrc   : CounterSource
  ie     : Bool
  digits : BitVec 4
  window : BitVec 8
  deriving DecidableEq, Repr, Inhabited

/-- The values of `STATUS.ERRCODE` that are ever produced (R220). -/
inductive ErrCode where
  | none
  | illegalCmd
  | badKeylen
  | badDigits
  | badPeriod
  deriving DecidableEq, Repr, Inhabited

/-- The stored fields of `STATUS` (R31). `BUSY` is not among them: it is `phase` (R46, log 11). -/
structure Status where
  done    : Bool
  err     : Bool
  matched : Bool
  overrun : Bool
  irq     : Bool
  errcode : ErrCode
  deriving DecidableEq, Repr, Inhabited

/-- The operand registers: "every register a command reads" (R46). -/
structure OperandRegs where
  ctrl      : Ctrl
  keylen    : BitVec 7
  period    : Word
  candlen   : BitVec 8
  counterHi : Word
  counterLo : Word
  timeHi    : Word
  timeLo    : Word
  cand      : Vector Word 3
  key       : Vector Word 16
  deriving DecidableEq, Repr

/-- The result registers (R39 to R44). -/
structure ResultRegs where
  lastctrHi : Word
  lastctrLo : Word
  trunc     : Word
  code      : Word
  remain    : Word
  codeAscii : Vector Word 3
  digest    : Vector Word 8
  deriving DecidableEq, Repr

/-- The hidden `phase` (R46), with `op` and the snapshot `snap` of the operand registers while `BUSY` (R161,
log 10). -/
inductive Phase where
  | idle
  | busy (op : Instr) (snap : OperandRegs)
  deriving DecidableEq, Repr

/-- The state. `inputs` (the turns still to be taken) and `readLog` (the values `MemRead` has returned, newest first)
are the model's own fields, not the spec's (log 1, log 8). -/
structure State where
  operands : OperandRegs
  results  : ResultRegs
  status   : Status
  phase    : Phase
  inReset  : Bool
  inputs   : List Input
  readLog  : List Word
  deriving DecidableEq, Repr

/-- The reset values of the operand registers (R252). -/
def OperandRegs.reset : OperandRegs where
  ctrl      := { alg := .sha1, csrc := .counter, ie := false, digits := 6#4, window := 1#8 }
  keylen    := 0#7
  period    := 30#32
  candlen   := 0#8
  counterHi := 0#32
  counterLo := 0#32
  timeHi    := 0#32
  timeLo    := 0#32
  cand      := Vector.replicate 3 0#32
  key       := Vector.replicate 16 0#32

/-- The reset values of the result registers (R252), which are also what ZEROIZE writes (R180): all 0. -/
def ResultRegs.zero : ResultRegs where
  lastctrHi := 0#32
  lastctrLo := 0#32
  trunc     := 0#32
  code      := 0#32
  remain    := 0#32
  codeAscii := Vector.replicate 3 0#32
  digest    := Vector.replicate 8 0#32

/-- The reset value of `STATUS` (R31): `0x00000000`. -/
def Status.reset : Status where
  done    := false
  err     := false
  matched := false
  overrun := false
  irq     := false
  errcode := .none

/-- The machine right after reset (R250, R252, R253): every register at its reset value, idle, the reset input
released. No turn is listed and nothing has been read (log 4, log 8, log 13). -/
def State.reset : State where
  operands := OperandRegs.reset
  results  := ResultRegs.zero
  status   := Status.reset
  phase    := .idle
  inReset  := false
  inputs   := []
  readLog  := []

/-- Why a step stops: the bus error of R62, which "a model represents ... as a host fault, not as a value". Raised by
the host's access in Machine/Agents.lean, never by a command. Each is safe: the model stops where the host goes on. -/
inductive Fault where
  /-- An access of a width other than 32 bits (R61). Raised by a host access. Safe. -/
  | busErrorWidth
  /-- An access with `off mod 4 != 0` (R61). Raised by a host access. Safe. -/
  | busErrorAlignment
  /-- An access outside the window (U12). Raised by a host access. Safe. -/
  | busErrorOutsideWindow
  deriving DecidableEq, Repr

/-- Why a step has no meaning. -/
inductive Refusal where
  /-- A command whose meaning is not written yet; raised by exec's arm for it. Safe. No arm raises it in this model. -/
  | notModelled (mnemonic : String)
  deriving DecidableEq, Repr

end Sys2Proof.Machine
end

