-- ==== Sys2Proof/Machine/Operands.lean ====
section
/-! DEFINITION. Operand assembly (R84 to R86): byte arrays in registers, 64-bit pairs, the key and the candidate of a
command. -/

namespace Sys2Proof.Machine

/-- Byte `j` of a register: `REG[31-8j : 24-8j]` for `j` in 0..3 (R84). -/
def wordByte (w : Word) (j : Nat) : Byte := w.extractLsb' (24 - 8 * j) 8

/-- `{b0, b1, b2, b3}`: the lowest-numbered byte in bits 31:24 (R84). -/
def wordOfBytes (b0 b1 b2 b3 : Byte) : Word :=
  (b0.setWidth 32 <<< 24) ||| (b1.setWidth 32 <<< 16) ||| (b2.setWidth 32 <<< 8) ||| b3.setWidth 32

/-- The four bytes of a register, lowest-numbered first (R84); `BE32` of R9. -/
def bytesOfWord (w : Word) : List Byte := [wordByte w 0, wordByte w 1, wordByte w 2, wordByte w 3]

/-- The byte array held in a group of consecutive registers (R84). -/
def bytesOfWords (ws : List Word) : List Byte := ws.flatMap bytesOfWord

/-- Register `i` of a packed byte array: `{A[4i], A[4i+1], A[4i+2], A[4i+3]}` (R84), bytes past the end 0 (R39, R43,
R88). -/
def packedWord (bytes : List Byte) (i : Nat) : Word :=
  wordOfBytes (bytes.getD (4 * i) 0#8) (bytes.getD (4 * i + 1) 0#8) (bytes.getD (4 * i + 2) 0#8)
    (bytes.getD (4 * i + 3) 0#8)

/-- The 64-bit value `{HI, LO}` of a register pair (R86). -/
def dwordOf (hi lo : Word) : Dword := (hi.setWidth 64 <<< 32) ||| lo.setWidth 64

/-- Bits 63:32 of a 64-bit value, the `_HI` register (R86). -/
def hiWord (d : Dword) : Word := d.extractLsb' 32 32

/-- Bits 31:0 of a 64-bit value, the `_LO` register (R86). -/
def loWord (d : Dword) : Word := d.extractLsb' 0 32

/-- `BE64(c)`: byte `k` is `c[63-8k : 56-8k]` (R9). -/
def be64 (c : Dword) : List Byte := bytesOfWord (hiWord c) ++ bytesOfWord (loWord c)

/-- `COUNTER = {COUNTER_HI, COUNTER_LO}` (R34, R86). -/
def OperandRegs.counter (o : OperandRegs) : Dword := dwordOf o.counterHi o.counterLo

/-- `TIME = {TIME_HI, TIME_LO}` (R33, R86). -/
def OperandRegs.time (o : OperandRegs) : Dword := dwordOf o.timeHi o.timeLo

/-- `KEYBYTES[0..63]` (R38). -/
def OperandRegs.keyBytes (o : OperandRegs) : List Byte := bytesOfWords o.key.toList

/-- The key of a command, `KEYBYTES[0 .. KEYLEN-1]` (R38, R100). -/
def OperandRegs.secret (o : OperandRegs) : List Byte := o.keyBytes.take o.keylen.toNat

/-- `CANDBYTES[0..11]` (R37). -/
def OperandRegs.candBytes (o : OperandRegs) : List Byte := bytesOfWords o.cand.toList

/-- `d = CTRL.DIGITS`, unsigned (R85). -/
def OperandRegs.digits (o : OperandRegs) : Nat := o.ctrl.digits.toNat

/-- `W = CTRL.WINDOW`, unsigned (R28, R85). -/
def OperandRegs.window (o : OperandRegs) : Nat := o.ctrl.window.toNat

/-- `CODEBYTES[0..11]` (R43). -/
def ResultRegs.codeBytes (r : ResultRegs) : List Byte := bytesOfWords r.codeAscii.toList

/-- `LASTCTR = {LASTCTR_HI, LASTCTR_LO}` (R44, R86). -/
def ResultRegs.lastctr (r : ResultRegs) : Dword := dwordOf r.lastctrHi r.lastctrLo

end Sys2Proof.Machine
end

