-- ==== Sys2Proof/Machine/Flags.lean ====
section
/-! DEFINITION. The words of `CTRL` and `STATUS` from their fields and back (R23, R29, R31, R85), every computation of
a `STATUS` bit (R65, R160, R162, R221), and the interrupt output (R230). -/

namespace Sys2Proof.Machine

/-- `ALG` as bit 0 of `CTRL` (R23). -/
def HashAlg.bit : HashAlg → Bool
  | .sha1 => false
  | .sha256 => true

/-- `ALG` from bit 0 of `CTRL` (R23). -/
def HashAlg.ofBit : Bool → HashAlg
  | false => .sha1
  | true => .sha256

/-- `CSRC` as bit 1 of `CTRL` (R23). -/
def CounterSource.bit : CounterSource → Bool
  | .counter => false
  | .time => true

/-- `CSRC` from bit 1 of `CTRL` (R23). -/
def CounterSource.ofBit : Bool → CounterSource
  | false => .counter
  | true => .time

/-- A one-bit field at bit `k` of a register. -/
def bitField (b : Bool) (k : Nat) : Word := (BitVec.ofBool b).setWidth 32 <<< k

/-- The word `CTRL` reads (R23): bits 15:8 `WINDOW`, 7:4 `DIGITS`, 2 `IE`, 1 `CSRC`, 0 `ALG`; bits 3 and 31:16 read 0
(R29). -/
def Ctrl.toWord (c : Ctrl) : Word :=
  (c.window.setWidth 32 <<< 8) ||| (c.digits.setWidth 32 <<< 4) ||| bitField c.ie 2 ||| bitField c.csrc.bit 1 |||
    bitField c.alg.bit 0

/-- "A write stores bits 0, 1, 2, 7:4 and 15:8 of the written value into the fields; bits 3 and 31:16 are ignored"
(R23). -/
def Ctrl.ofWord (v : Word) : Ctrl where
  alg    := HashAlg.ofBit (v.getLsbD 0)
  csrc   := CounterSource.ofBit (v.getLsbD 1)
  ie     := v.getLsbD 2
  digits := v.extractLsb' 4 4
  window := v.extractLsb' 8 8

/-- The 4-bit value of an error code (R220). -/
def ErrCode.toBits : ErrCode → BitVec 4
  | .none => 0#4
  | .illegalCmd => 1#4
  | .badKeylen => 2#4
  | .badDigits => 3#4
  | .badPeriod => 4#4

/-- `STATUS.BUSY` (R31): 1 exactly while `phase = BUSY` (R46). -/
def Phase.isBusy : Phase → Bool
  | .idle => false
  | .busy _ _ => true

/-- The word `STATUS` reads (R31): 11:8 `ERRCODE`, 5 `IRQ`, 4 `OVERRUN`, 3 `MATCH`, 2 `ERR`, 1 `DONE`, 0 `BUSY`; bits
7:6 and 31:12 read 0 (R29). -/
def statusWord (s : State) : Word :=
  (s.status.errcode.toBits.setWidth 32 <<< 8) ||| bitField s.status.irq 5 ||| bitField s.status.overrun 4 |||
    bitField s.status.matched 3 ||| bitField s.status.err 2 ||| bitField s.status.done 1 ||| bitField s.phase.isBusy 0

/-- A host write to `STATUS` "clears each of `OVERRUN` and `IRQ` whose written bit is 1 and leaves it unchanged where
the written bit is 0; it does not change any other field" (R31). -/
def Status.acknowledge (v : Word) (st : Status) : Status :=
  { st with overrun := st.overrun && !v.getLsbD 4, irq := st.irq && !v.getLsbD 5 }

/-- `STATUS` after acceptance (R160): `DONE <- 0; ERR <- 0; ERRCODE <- 0` (`BUSY <- 1` is `phase`). -/
def Status.accepted (st : Status) : Status :=
  { st with done := false, err := false, errcode := .none }

/-- `STATUS` after a failure at acceptance (R221): `DONE <- 1; ERR <- 1; ERRCODE <- code; MATCH <- 0; IRQ <- 1`. -/
def Status.failed (code : ErrCode) (st : Status) : Status :=
  { st with done := true, err := true, errcode := code, matched := false, irq := true }

/-- `STATUS` after completion (R162), with the command's `MATCH`: `DONE <- 1; IRQ <- 1` (`BUSY <- 0` is `phase`). -/
def Status.completed (matched : Bool) (st : Status) : Status :=
  { st with matched := matched, done := true, irq := true }

/-- `STATUS` after a write that arrives while busy (R65): `OVERRUN <- 1`. -/
def Status.overran (st : Status) : Status := { st with overrun := true }

/-- The interrupt output: `irq = STATUS.IRQ AND CTRL.IE` at every instant (R230, R26). -/
def State.irq (s : State) : Bool := s.status.irq && s.operands.ctrl.ie

end Sys2Proof.Machine
end

