-- ==== Sys2Proof/Machine/Ops.lean ====
section
/-! DEFINITION. The named operations over the registers: reading and writing the register window (R20 to R45, R65,
R66), the checks at acceptance (R222 to R226), failing (R221), accepting (R160, R161) and completing (R162) a command,
and reset (R250). -/

namespace Sys2Proof.Machine

/-- The value a 32-bit read of a register returns (R20 to R44): `CMD` and `KEY0..15` read 0. -/
def readReg (s : State) : Reg → Word
  | .id => 0x544F5450#32
  | .version => 0x00010000#32
  | .ctrl => s.operands.ctrl.toWord
  | .cmd => 0#32
  | .status => statusWord s
  | .keylen => s.operands.keylen.setWidth 32
  | .period => s.operands.period
  | .candlen => s.operands.candlen.setWidth 32
  | .counterHi => s.operands.counterHi
  | .counterLo => s.operands.counterLo
  | .timeHi => s.operands.timeHi
  | .timeLo => s.operands.timeLo
  | .lastctrHi => s.results.lastctrHi
  | .lastctrLo => s.results.lastctrLo
  | .trunc => s.results.trunc
  | .code => s.results.code
  | .remain => s.results.remain
  | .codeAscii i => s.results.codeAscii[i]
  | .cand i => s.operands.cand[i]
  | .digest i => s.results.digest[i]
  | .key _ => 0#32

/-- `MemRead(off, 4)` (R66): the register's current value, 0 at a reserved offset (R45). -/
def readOffset (s : State) (off : Nat) : Word :=
  match regAt off with
  | some r => readReg s r
  | none => 0#32

/-- What a write stores into the operand registers (R23, R32 to R38). Writes to read-only registers are ignored (R20);
`CMD` holds no state (R30) and `STATUS` is not an operand (R31). -/
def OperandRegs.write (o : OperandRegs) (v : Word) : Reg → OperandRegs
  | .ctrl => { o with ctrl := Ctrl.ofWord v }
  | .keylen => { o with keylen := v.extractLsb' 0 7 }
  | .period => { o with period := v }
  | .candlen => { o with candlen := v.extractLsb' 0 8 }
  | .counterHi => { o with counterHi := v }
  | .counterLo => { o with counterLo := v }
  | .timeHi => { o with timeHi := v }
  | .timeLo => { o with timeLo := v }
  | .cand i => { o with cand := o.cand.set i v }
  | .key i => { o with key := o.key.set i v }
  | .id => o
  | .version => o
  | .cmd => o
  | .status => o
  | .lastctrHi => o
  | .lastctrLo => o
  | .trunc => o
  | .code => o
  | .remain => o
  | .codeAscii _ => o
  | .digest _ => o

/-- A write to an operand register while idle (R66); the state is unchanged for every register that stores nothing. -/
def writeReg (s : State) (r : Reg) (v : Word) : State :=
  { s with operands := s.operands.write v r }

/-- A write to `STATUS` (R31), honoured in either phase (R65). -/
def acknowledge (s : State) (v : Word) : State :=
  { s with status := s.status.acknowledge v }

/-- A write to any other offset while busy: it "changes no register and no hidden state and sets `STATUS.OVERRUN <- 1`"
(R65). -/
def overrun (s : State) : State := { s with status := s.status.overran }

/-- The value a read returned, handed to the host (log 8). No register changes (R66). -/
def logRead (s : State) (v : Word) : State := { s with readLog := v :: s.readLog }

/-- The operand checks of GEN and VERIFY in the order of R160 and R226, the first that fails reported: `BAD_KEYLEN`
(R222), `BAD_DIGITS` (R223), `BAD_PERIOD` (R224). -/
def OperandRegs.check (o : OperandRegs) : Option ErrCode :=
  if ¬ (1 ≤ o.keylen.toNat ∧ o.keylen.toNat ≤ 64) then some .badKeylen
  else if ¬ (5 ≤ o.digits ∧ o.digits ≤ 9) then some .badDigits
  else if o.ctrl.csrc = .time ∧ o.period = 0#32 then some .badPeriod
  else none

/-- The checks of a command at acceptance (R160): "ZEROIZE is accepted whatever the operand registers hold" (R180). -/
def commandCheck (op : Instr) (o : OperandRegs) : Option ErrCode :=
  match op with
  | .gen => o.check
  | .verify => o.check
  | .zeroize => none

/-- `raise Error(code)` (R221): no `BUSY` phase, no snapshot, only `STATUS` fields change. -/
def raiseError (code : ErrCode) (s : State) : State :=
  { s with status := s.status.failed code }

/-- Acceptance of a command that passes its checks (R160): the snapshot is taken (R161) and the core becomes busy. -/
def begin (op : Instr) (s : State) : State :=
  { s with phase := .busy op s.operands, status := s.status.accepted }

/-- A command word taken while idle (R160): the checks in order, then failure (R221) or acceptance. -/
def accept (op : Instr) (s : State) : State :=
  match commandCheck op s.operands with
  | some code => raiseError code s
  | none => begin op s

/-- Completion (R162): the command's result writes are applied, `BUSY <- 0; DONE <- 1; IRQ <- 1; phase <- IDLE`.
`operands` and `results` are the registers after the command's writes, `matched` its `MATCH`. -/
def complete (operands : OperandRegs) (results : ResultRegs) (matched : Bool) (s : State) : State :=
  { s with
    operands := operands
    results := results
    status := s.status.completed matched
    phase := .idle }

/-- What the reset input does to the core (R250): every register at its reset value, `phase = IDLE`, no command
pending, the snapshot discarded. The schedule and what the host has read are the host's, not the core's (log 4). -/
def clearRegisters (s : State) : State :=
  { s with
    operands := OperandRegs.reset
    results := ResultRegs.zero
    status := Status.reset
    phase := .idle }

end Sys2Proof.Machine
end

