-- ==== Sys2Proof/Machine/Hash.lean ====
section
/-! DEFINITION. Padding, SHA-1 and SHA-256 (R102 to R117 of `spec/40_hmac.md`). The spec takes these from general
knowledge and records that it checked them (log 17). -/

namespace Sys2Proof.Machine

/-- `z` of R102: the least `z >= 0` with `(n + 1 + z) mod 64 = 56`. -/
def padZeros (n : Nat) : Nat := (119 - n % 64) % 64

/-- `PAD(M)` (R102). -/
def pad (m : List Byte) : List Byte :=
  m ++ [0x80#8] ++ List.replicate (padZeros m.length) 0x00#8 ++ be64 (BitVec.ofNat 64 (8 * m.length))

/-- The sixteen words `W0..W15` of a 64-byte block (R102). -/
def blockWords (block : List Byte) : List Word :=
  (List.range 16).map (packedWord block)

/-- The first `n` blocks `M(1) .. M(n)` of a padded message (R102). -/
def blocksOf : Nat → List Byte → List (List Word)
  | 0, _ => []
  | n + 1, bytes => blockWords (bytes.take 64) :: blocksOf n (bytes.drop 64)

/-- The blocks of a padded message, a whole number of 64-byte blocks (R102). -/
def messageBlocks (m : List Byte) : List (List Word) :=
  blocksOf ((pad m).length / 64) (pad m)

/-- The word `W(t-k)` of a schedule held newest first. -/
def scheduleBack (ws : List Word) (k : Nat) : Word := ws.getD (k - 1) 0#32

/-! ### SHA-1 -/

/-- The hash value `H0..H4`, and the working variables `a..e` (R103, R106). -/
structure Sha1State where
  a : Word
  b : Word
  c : Word
  d : Word
  e : Word
  deriving DecidableEq, Repr

/-- The initial hash value (R103). -/
def sha1Init : Sha1State where
  a := 0x67452301#32
  b := 0xEFCDAB89#32
  c := 0x98BADCFE#32
  d := 0x10325476#32
  e := 0xC3D2E1F0#32

/-- `f_t(x, y, z)` (R104). -/
def sha1F (t : Nat) (x y z : Word) : Word :=
  if t < 20 then (x &&& y) ^^^ (~~~x &&& z)
  else if t < 40 then x ^^^ y ^^^ z
  else if t < 60 then (x &&& y) ^^^ (x &&& z) ^^^ (y &&& z)
  else x ^^^ y ^^^ z

/-- `K_t` (R104). -/
def sha1K (t : Nat) : Word :=
  if t < 20 then 0x5A827999#32
  else if t < 40 then 0x6ED9EBA1#32
  else if t < 60 then 0x8F1BBCDC#32
  else 0xCA62C1D6#32

/-- `n` more words of the schedule (R105), newest first:
`Wt = ROTL_1(W(t-3) XOR W(t-8) XOR W(t-14) XOR W(t-16))`. -/
def sha1Extend : Nat → List Word → List Word
  | 0, ws => ws
  | n + 1, ws =>
    sha1Extend n
      ((scheduleBack ws 3 ^^^ scheduleBack ws 8 ^^^ scheduleBack ws 14 ^^^ scheduleBack ws 16).rotateLeft 1 :: ws)

/-- `W0..W79` of a block (R105). -/
def sha1Schedule (block : List Word) : List Word := (sha1Extend 64 block.reverse).reverse

/-- One round (R106). -/
def sha1Round (t : Nat) (w : Word) (h : Sha1State) : Sha1State where
  a := h.a.rotateLeft 5 + sha1F t h.b h.c h.d + h.e + sha1K t + w
  b := h.a
  c := h.b.rotateLeft 30
  d := h.c
  e := h.d

/-- The rounds from `t` on, one for each word of the schedule (R106). -/
def sha1Rounds : Nat → List Word → Sha1State → Sha1State
  | _, [], h => h
  | t, w :: ws, h => sha1Rounds (t + 1) ws (sha1Round t w h)

/-- The additions at the end of a block (R106). -/
def Sha1State.add (g h : Sha1State) : Sha1State where
  a := g.a + h.a
  b := g.b + h.b
  c := g.c + h.c
  d := g.d + h.d
  e := g.e + h.e

/-- The compression of one block (R106). -/
def sha1Compress (h : Sha1State) (block : List Word) : Sha1State :=
  h.add (sha1Rounds 0 (sha1Schedule block) h)

/-- The 20 bytes `BE32(H0) ++ ... ++ BE32(H4)` (R108). -/
def Sha1State.bytes (h : Sha1State) : List Byte := bytesOfWords [h.a, h.b, h.c, h.d, h.e]

/-- `SHA1(M)` (R107, R108). -/
def sha1 (m : List Byte) : List Byte := ((messageBlocks m).foldl sha1Compress sha1Init).bytes

/-! ### SHA-256 -/

/-- The hash value `H0..H7`, and the working variables `a..h` (R111, R115). -/
structure Sha256State where
  a : Word
  b : Word
  c : Word
  d : Word
  e : Word
  f : Word
  g : Word
  h : Word
  deriving DecidableEq, Repr

/-- The initial hash value (R111). -/
def sha256Init : Sha256State where
  a := 0x6a09e667#32
  b := 0xbb67ae85#32
  c := 0x3c6ef372#32
  d := 0xa54ff53a#32
  e := 0x510e527f#32
  f := 0x9b05688c#32
  g := 0x1f83d9ab#32
  h := 0x5be0cd19#32

/-- `K_0 .. K_63`, row by row (R112). -/
def sha256Ks : List Word :=
  [0x428a2f98#32, 0x71374491#32, 0xb5c0fbcf#32, 0xe9b5dba5#32, 0x3956c25b#32, 0x59f111f1#32, 0x923f82a4#32, 0xab1c5ed5#32] ++
  [0xd807aa98#32, 0x12835b01#32, 0x243185be#32, 0x550c7dc3#32, 0x72be5d74#32, 0x80deb1fe#32, 0x9bdc06a7#32, 0xc19bf174#32] ++
  [0xe49b69c1#32, 0xefbe4786#32, 0x0fc19dc6#32, 0x240ca1cc#32, 0x2de92c6f#32, 0x4a7484aa#32, 0x5cb0a9dc#32, 0x76f988da#32] ++
  [0x983e5152#32, 0xa831c66d#32, 0xb00327c8#32, 0xbf597fc7#32, 0xc6e00bf3#32, 0xd5a79147#32, 0x06ca6351#32, 0x14292967#32] ++
  [0x27b70a85#32, 0x2e1b2138#32, 0x4d2c6dfc#32, 0x53380d13#32, 0x650a7354#32, 0x766a0abb#32, 0x81c2c92e#32, 0x92722c85#32] ++
  [0xa2bfe8a1#32, 0xa81a664b#32, 0xc24b8b70#32, 0xc76c51a3#32, 0xd192e819#32, 0xd6990624#32, 0xf40e3585#32, 0x106aa070#32] ++
  [0x19a4c116#32, 0x1e376c08#32, 0x2748774c#32, 0x34b0bcb5#32, 0x391c0cb3#32, 0x4ed8aa4a#32, 0x5b9cca4f#32, 0x682e6ff3#32] ++
  [0x748f82ee#32, 0x78a5636f#32, 0x84c87814#32, 0x8cc70208#32, 0x90befffa#32, 0xa4506ceb#32, 0xbef9a3f7#32, 0xc67178f2#32]

/-- `Ch(x, y, z)` (R113). -/
def sha256Ch (x y z : Word) : Word := (x &&& y) ^^^ (~~~x &&& z)

/-- `Maj(x, y, z)` (R113). -/
def sha256Maj (x y z : Word) : Word := (x &&& y) ^^^ (x &&& z) ^^^ (y &&& z)

/-- `S0(x)` (R113). -/
def sha256BigS0 (x : Word) : Word := x.rotateRight 2 ^^^ x.rotateRight 13 ^^^ x.rotateRight 22

/-- `S1(x)` (R113). -/
def sha256BigS1 (x : Word) : Word := x.rotateRight 6 ^^^ x.rotateRight 11 ^^^ x.rotateRight 25

/-- `s0(x)` (R113). -/
def sha256SmallS0 (x : Word) : Word := x.rotateRight 7 ^^^ x.rotateRight 18 ^^^ (x >>> 3)

/-- `s1(x)` (R113). -/
def sha256SmallS1 (x : Word) : Word := x.rotateRight 17 ^^^ x.rotateRight 19 ^^^ (x >>> 10)

/-- `n` more words of the schedule (R114), newest first: `Wt = s1(W(t-2)) + W(t-7) + s0(W(t-15)) + W(t-16)`. -/
def sha256Extend : Nat → List Word → List Word
  | 0, ws => ws
  | n + 1, ws =>
    sha256Extend n
      ((sha256SmallS1 (scheduleBack ws 2) + scheduleBack ws 7 + sha256SmallS0 (scheduleBack ws 15)
        + scheduleBack ws 16) :: ws)

/-- `W0..W63` of a block (R114). -/
def sha256Schedule (block : List Word) : List Word := (sha256Extend 48 block.reverse).reverse

/-- `T1` of a round, with `kt = K_t` and `wt = Wt` (R115). -/
def sha256T1 (kt wt : Word) (v : Sha256State) : Word := v.h + sha256BigS1 v.e + sha256Ch v.e v.f v.g + kt + wt

/-- `T2` of a round (R115). -/
def sha256T2 (v : Sha256State) : Word := sha256BigS0 v.a + sha256Maj v.a v.b v.c

/-- One round (R115). -/
def sha256Round (kt wt : Word) (v : Sha256State) : Sha256State where
  a := sha256T1 kt wt v + sha256T2 v
  b := v.a
  c := v.b
  d := v.c
  e := v.d + sha256T1 kt wt v
  f := v.e
  g := v.f
  h := v.g

/-- The rounds, one for each constant and word of the schedule (R115). -/
def sha256Rounds : List Word → List Word → Sha256State → Sha256State
  | k :: ks, w :: ws, v => sha256Rounds ks ws (sha256Round k w v)
  | [], _, v => v
  | _, [], v => v

/-- The additions at the end of a block (R115). -/
def Sha256State.add (u v : Sha256State) : Sha256State where
  a := u.a + v.a
  b := u.b + v.b
  c := u.c + v.c
  d := u.d + v.d
  e := u.e + v.e
  f := u.f + v.f
  g := u.g + v.g
  h := u.h + v.h

/-- The compression of one block (R115). -/
def sha256Compress (v : Sha256State) (block : List Word) : Sha256State :=
  v.add (sha256Rounds sha256Ks (sha256Schedule block) v)

/-- The 32 bytes `BE32(H0) ++ ... ++ BE32(H7)` (R117). -/
def Sha256State.bytes (v : Sha256State) : List Byte := bytesOfWords [v.a, v.b, v.c, v.d, v.e, v.f, v.g, v.h]

/-- `SHA256(M)` (R116, R117). -/
def sha256 (m : List Byte) : List Byte := ((messageBlocks m).foldl sha256Compress sha256Init).bytes

/-! ### Hash selection -/

/-- `H` (R110): `SHA1` when `ALG = 0`, `SHA256` when `ALG = 1`. -/
def hash : HashAlg → List Byte → List Byte
  | .sha1 => sha1
  | .sha256 => sha256

/-- The digest length `L` in bytes (R110). -/
def digestLength : HashAlg → Nat
  | .sha1 => 20
  | .sha256 => 32

end Sys2Proof.Machine
end

