-- ==== Sys2Proof/Machine/Hmac.lean ====
section
/-! DEFINITION. HMAC of the counter message (R100, R101, R118 to R120 of `spec/40_hmac.md`). -/

namespace Sys2Proof.Machine

/-- `MSG(c) = BE64(c)` (R101). -/
def counterMessage (c : Dword) : List Byte := be64 c

/-- The padded key `K0 = K ++ [0x00] * (64 - k)` (R118). -/
def paddedKey (k : List Byte) : List Byte := k ++ List.replicate (Config.blockBytes - k.length) 0x00#8

/-- The bytewise XOR of the padded key with `[b] * 64` (R119): `b` is `0x36` for `ipad`, `0x5C` for `opad`. -/
def xorPad (b : Byte) (k0 : List Byte) : List Byte := k0.map (· ^^^ b)

/-- `HMAC_H(K, m) = H( (K0 XOR opad) ++ H( (K0 XOR ipad) ++ m ) )` (R120). -/
def hmac (alg : HashAlg) (k m : List Byte) : List Byte :=
  hash alg (xorPad 0x5C#8 (paddedKey k) ++ hash alg (xorPad 0x36#8 (paddedKey k) ++ m))

/-- The HMAC step of a command for counter `c` (R100): `hash = HMAC_H(K, MSG(c))`. -/
def OperandRegs.hmacAt (o : OperandRegs) (c : Dword) : List Byte :=
  hmac o.ctrl.alg o.secret (counterMessage c)

end Sys2Proof.Machine
end

