-- ==== Sys2Proof/Machine/Otp.lean ====
section
/-! DEFINITION. The counter source, dynamic truncation, digit extraction and seconds remaining (R140 to R147 of
`spec/41_truncation.md`), and the candidate comparison over the window (R172, R173). -/

namespace Sys2Proof.Machine

/-- `TSTEP(T, P) = floor(T / P)` (R141). `P = 0` never reaches it (R224, log 16). -/
def timeStep (t : Dword) (p : Word) : Dword := BitVec.ofNat 64 (t.toNat / p.toNat)

/-- The base counter `c0` of a command (R140). -/
def OperandRegs.baseCounter (o : OperandRegs) : Dword :=
  match o.ctrl.csrc with
  | .counter => o.counter
  | .time => timeStep o.time o.period

/-- `off = hash[L-1] AND 0x0F` (R142), `L` the length of the digest. -/
def truncOffset (digest : List Byte) : Nat := (digest.getD (digest.length - 1) 0#8 &&& 0x0F#8).toNat

/-- The truncated value `binary` (R143):
`((hash[off] AND 0x7F) << 24) | (hash[off+1] << 16) | (hash[off+2] << 8) | hash[off+3]`. -/
def truncated (digest : List Byte) : Word :=
  wordOfBytes (digest.getD (truncOffset digest) 0#8 &&& 0x7F#8) (digest.getD (truncOffset digest + 1) 0#8)
    (digest.getD (truncOffset digest + 2) 0#8) (digest.getD (truncOffset digest + 3) 0#8)

/-- `code = binary mod 10^DIGITS` (R144). -/
def codeOf (d : Nat) (binary : Word) : Nat := binary.toNat % 10 ^ d

/-- The code string (R145): `CODESTR[k] = 0x30 + (floor(code / 10^(d-1-k)) mod 10)` for `k` in `0..d-1`. -/
def codeString (d code : Nat) : List Byte :=
  (List.range d).map fun k => BitVec.ofNat 8 (0x30 + code / 10 ^ (d - 1 - k) % 10)

/-- `CODEBYTES` (R43, R145): the code string, then `0x00` to 12 bytes. -/
def codeBuffer (d code : Nat) : List Byte :=
  codeString d code ++ List.replicate (Config.codeBufferBytes - d) 0x00#8

/-- Seconds remaining, `PERIOD - (TIME mod PERIOD)` (R147). -/
def secondsRemaining (t : Dword) (p : Word) : Word := BitVec.ofNat 32 (p.toNat - t.toNat % p.toNat)

/-- The code integer of the pipeline of R170 at counter `c`. -/
def OperandRegs.codeAt (o : OperandRegs) (c : Dword) : Nat := codeOf o.digits (truncated (o.hmacAt c))

/-- The code string of the pipeline of R170 at counter `c`. -/
def OperandRegs.codeStringAt (o : OperandRegs) (c : Dword) : List Byte := codeString o.digits (o.codeAt c)

/-- The offsets `i = -W, -W+1, ..., W` of the window, ascending (R172). -/
def windowOffsets (w : Nat) : List Int := (List.range (2 * w + 1)).map fun (k : Nat) => (k : Int) - (w : Int)

/-- `c_i = (t + i) mod 2^64` (R172). -/
def windowCounter (t : Dword) (i : Int) : Dword := BitVec.ofInt 64 ((t.toNat : Int) + i)

/-- `EQ(S) = (CANDLEN = d) and (for all k in 0..d-1: CANDBYTES[k] = S[k])` (R173). -/
def OperandRegs.candidateEquals (o : OperandRegs) (s : List Byte) : Bool :=
  o.candlen.toNat == o.digits && (List.range o.digits).all fun k => o.candBytes.getD k 0#8 == s.getD k 0#8

/-- The boolean of VERIFY (R174): some counter of the window has a code string that equals the candidate; the search is
in ascending order and ends at the first match. -/
def OperandRegs.verifies (o : OperandRegs) : Bool :=
  (windowOffsets o.window).any fun i => o.candidateEquals (o.codeStringAt (windowCounter o.baseCounter i))

end Sys2Proof.Machine
end

