-- ==== Sys2Proof/Machine/Commands.lean ====
section
/-! DEFINITION. The commands (R170, R174, R180 of `spec/42_commands.md`). A command takes effect in two steps: while
idle its `CMD` write is accepted or fails (R160, R221); while busy the sequencer completes it from the snapshot (R162).
A meaning is both, by phase (log 3). -/

namespace Sys2Proof.Machine

/-- The result registers GEN writes, computed from the snapshot (R170). -/
def genResults (snap : OperandRegs) : ResultRegs :=
  let c0 := snap.baseCounter
  let digest := snap.hmacAt c0
  let code := snap.codeAt c0
  let buffer := codeBuffer snap.digits code
  { lastctrHi := hiWord c0
    lastctrLo := loWord c0
    trunc := truncated digest
    code := BitVec.ofNat 32 code
    remain := match snap.ctrl.csrc with
      | .counter => 0#32
      | .time => secondsRemaining snap.time snap.period
    codeAscii := #v[packedWord buffer 0, packedWord buffer 1, packedWord buffer 2]
    digest := #v[packedWord digest 0, packedWord digest 1, packedWord digest 2, packedWord digest 3,
      packedWord digest 4, packedWord digest 5, packedWord digest 6, packedWord digest 7] }

/-- The result registers after VERIFY (R174): only `LASTCTR` is written; all others keep their values. -/
def verifyResults (snap : OperandRegs) (r : ResultRegs) : ResultRegs :=
  { r with lastctrHi := hiWord snap.baseCounter, lastctrLo := loWord snap.baseCounter }

/-- The operand registers after ZEROIZE (R180): key, key length, candidate and candidate length 0; `CTRL`, `PERIOD`,
`COUNTER` and `TIME` not written. -/
def zeroizeOperands (o : OperandRegs) : OperandRegs :=
  { o with
    key := Vector.replicate 16 0#32
    keylen := 0#7
    cand := Vector.replicate 3 0#32
    candlen := 0#8 }

/-- `GEN` (R170): generate one OTP code. -/
def execGen (s : State) : Host.Outcome State Fault Refusal :=
  match s.phase with
  | .idle => .next (accept .gen s)
  | .busy _ snap => .next (complete s.operands (genResults snap) false s)

/-- `VERIFY` (R174): check a candidate code against a window of counters. -/
def execVerify (s : State) : Host.Outcome State Fault Refusal :=
  match s.phase with
  | .idle => .next (accept .verify s)
  | .busy _ snap => .next (complete s.operands (verifyResults snap s.results) snap.verifies s)

/-- `ZEROIZE` (R180): erase the key, the candidate and all results. -/
def execZeroize (s : State) : Host.Outcome State Fault Refusal :=
  match s.phase with
  | .idle => .next (accept .zeroize s)
  | .busy _ _ => .next (complete (zeroizeOperands s.operands) ResultRegs.zero false s)

end Sys2Proof.Machine
end

