-- ==== Sys2Proof/Machine/Agents.lean ====
section
/-! DEFINITION. The three agents of R10: the host's accesses (R61 to R66, R80, R82, R160), the sequencer's step (R162)
and the reset input (R250, R251). Each takes its turns one at a time (R67). -/

namespace Sys2Proof.Machine

/-- A command word taken while idle: a legal word runs its command (R160); an illegal one fails with `ILLEGAL_CMD`
(R82, R225, log 22). -/
def issueCommand (v : Word) (s : State) : Host.Outcome State Fault Refusal :=
  match decode v with
  | .ok i => exec i s
  | .error _ => .next (raiseError .illegalCmd s)

/-- `MemWrite(off, 4, v)` (R65, R66). -/
def hostWrite (off : Nat) (v : Word) (s : State) : Host.Outcome State Fault Refusal :=
  match regAt off, s.phase with
  | some .status, _ => .next (acknowledge s v)
  | _, .busy _ _ => .next (overrun s)
  | some .cmd, .idle => issueCommand v s
  | some r, .idle => .next (writeReg s r v)
  | none, .idle => .next s

/-- `MemRead(off, 4)` (R66): the value goes to the host and no state of the core changes. -/
def hostRead (off : Nat) (s : State) : State := logRead s (readOffset s off)

/-- One host access: refused with a bus error unless it is a 32-bit access, aligned, inside the window (R61, R62,
U12, log 6). -/
def hostAccess (a : Access) (s : State) : Host.Outcome State Fault Refusal :=
  if a.width ≠ 4 then .fault .busErrorWidth
  else match a.target.windowOffset with
    | none => .fault .busErrorOutsideWindow
    | some off =>
      if off % 4 ≠ 0 then .fault .busErrorAlignment
      else match a.kind with
        | .read => .next (hostRead off s)
        | .write v => hostWrite off v s

/-- One turn of the `POLL` loop (R88): read `STATUS` until `BUSY` reads 0. While a command is pending the schedule lets
the loop read `BUSY = 1` another `busyReads` times, and then gives the sequencer its turn before the next read (log 9). -/
def hostPoll (busyReads : Nat) (s : State) : State :=
  match s.phase with
  | .idle => hostRead Reg.status.offset s
  | .busy _ _ =>
    match busyReads with
    | 0 => { s with inputs := .sequencer :: .poll 0 :: s.inputs }
    | n + 1 => hostRead Reg.status.offset { s with inputs := .poll n :: s.inputs }

/-- The sequencer's turn (R162): it completes the pending command; it has no step while idle (R10). -/
def sequencerTurn (s : State) : Host.Outcome State Fault Refusal :=
  match s.phase with
  | .idle => .next s
  | .busy op _ => exec op s

/-- The reset input is asserted (R250, R251). -/
def resetAssert (s : State) : State := { clearRegisters s with inReset := true }

/-- The reset input is released (R250): on release every register holds its reset value. Releasing an input that is not
asserted changes nothing. -/
def resetRelease (s : State) : State :=
  if s.inReset then { clearRegisters s with inReset := false } else s

/-- One turn of an agent. While reset is asserted neither the host nor the sequencer has a step: "Host accesses during
reset assertion are not served" (R251), and no command is pending (R250); the turn passes (log 5). -/
def agentTurn (i : Input) (s : State) : Host.Outcome State Fault Refusal :=
  match i with
  | .resetAssert => .next (resetAssert s)
  | .resetRelease => .next (resetRelease s)
  | .access a => if s.inReset then .next s else hostAccess a s
  | .poll busyReads => if s.inReset then .next s else .next (hostPoll busyReads s)
  | .sequencer => if s.inReset then .next s else sequencerTurn s

/-- What happens when no turn is listed: a pending command completes, by the weak fairness of R163 (log 2); otherwise
nothing does. -/
def quietTurn (s : State) : Host.Outcome State Fault Refusal :=
  if s.inReset then .next s else sequencerTurn s

/-- `MemRead(off, 4)` as a host access (R9, R61). -/
def read32 (off : Nat) : Access := { target := .offset off, width := 4, kind := .read }

/-- `MemWrite(off, 4, v)` as a host access (R9, R61). -/
def write32 (off : Nat) (v : Word) : Access := { target := .offset off, width := 4, kind := .write v }

/-- The host's turn that writes a command word to `CMD` (R80). -/
def commandAccess (v : Word) : Input := .access (write32 Reg.cmd.offset v)

end Sys2Proof.Machine
end

