-- ==== Sys2Proof/Machine/Step.lean ====
section
/-! DEFINITION. The step: the next listed turn is taken, one at a time (R67). -/

namespace Sys2Proof.Machine

/-- One step: the first of the listed turns, or, when none is listed, the sequencer's (R10, R67, R163).
A step has no duration (log 20). -/
def step (s : State) : Host.Outcome State Fault Refusal :=
  match s.inputs with
  | [] => quietTurn s
  | i :: rest => agentTurn i { s with inputs := rest }

/-- A command word stored where the next step takes it from: the host's next turn is the `CMD` write of it, the core is
idle and the reset input is released (log 4). -/
def State.withFetchWord (s : State) (nbits w : Nat) : State :=
  { s with
    inputs := commandAccess (tableWord nbits w) :: s.inputs
    phase := .idle
    inReset := false }

end Sys2Proof.Machine
end

