-- ==== Sys2Proof/Machine/Driver.lean ====
section
/-! DEFINITION. The host driver (R200 to R209 of `spec/43_host_driver.md`): the software that prepares the core's
operands, with the expansions of the pseudo-statements (R88) and the three call sequences (R203, R204, R206). -/

namespace Sys2Proof.Machine

/-! ### Seed normalization (R200, R201) -/

/-- Why the driver refuses a request. -/
inductive DriverError where
  /-- `ValidationError`: the secret "fails normalization" (R200, R207). -/
  | validation
  /-- A core error after GEN or VERIFY (R207), with `STATUS.ERRCODE`. -/
  | coreError (errcode : BitVec 4)
  /-- A `window` above 255 "cannot be expressed in `CTRL.WINDOW` and the driver must refuse it" (R206). -/
  | windowTooLarge
  /-- No `STATUS` read of the call showed `BUSY = 0` and `DONE = 1`, so the driver reads no result (R208, log 25). -/
  | notCompleted
  deriving DecidableEq, Repr

/-- The four whitespace characters R200 names: space, tab, newline, carriage return. -/
def isNamedWhitespace (c : Char) : Bool :=
  c.toNat == 0x20 || c.toNat == 0x09 || c.toNat == 0x0A || c.toNat == 0x0D

/-- An ASCII graphic character, which is no whitespace (log 14). -/
def isGraphic (c : Char) : Bool := 0x21 ≤ c.toNat && c.toNat ≤ 0x7E

/-- What `normalize_hex_seed` strips (R200, U1): the four named characters; of the rest, an open predicate. -/
def isWhitespace (c : Char) : Bool := isNamedWhitespace c || (!isGraphic c && Config.otherWhitespace c)

/-- A character of `^[0-9a-f]{64}$` (R200). -/
def isLowerHex (c : Char) : Bool :=
  (0x30 ≤ c.toNat && c.toNat ≤ 0x39) || (0x61 ≤ c.toNat && c.toNat ≤ 0x66)

/-- Lower case of one character; only ASCII letters matter here (log 15). -/
def lowerChar (c : Char) : Char :=
  if 0x41 ≤ c.toNat ∧ c.toNat ≤ 0x5A then Char.ofNat (c.toNat + 0x20) else c

/-- "Strip all whitespace characters ... anywhere in the string, then lowercase" (R200). -/
def strippedSeed (raw : List Char) : List Char := (raw.filter fun c => !isWhitespace c).map lowerChar

/-- `normalize_hex_seed` (R200): the stripped, lower-case string, or `ValidationError` unless it has length 64 and
matches `^[0-9a-f]{64}$`. -/
def normalizeHexSeed (raw : List Char) : Except DriverError (List Char) :=
  if (strippedSeed raw).length = 64 ∧ (strippedSeed raw).all isLowerHex = true then .ok (strippedSeed raw)
  else .error .validation

/-- `nib('0'..'9') = 0..9, nib('a'..'f') = 10..15` (R201). -/
def nib (c : Char) : Nat := if c.toNat ≤ 0x39 then c.toNat - 0x30 else c.toNat - 0x57

/-- `hex_to_bytes` (R201): "each adjacent pair of hex characters to one byte, most-significant nibble first". On
any other string than a normalized seed its value is the model's (log 23). -/
def hexToBytes : List Char → List Byte
  | hi :: lo :: rest => BitVec.ofNat 8 (16 * nib hi + nib lo) :: hexToBytes rest
  | [_] => []
  | [] => []

/-- The secret of a raw seed: 32 bytes, or `ValidationError` (R200, R201). -/
def secretOfSeed (raw : List Char) : Except DriverError (List Byte) :=
  match normalizeHexSeed raw with
  | .ok hex => .ok (hexToBytes hex)
  | .error e => .error e

/-! ### Host-sequence statements (R87, R88, R202, R205) -/

/-- `WR <reg>, <imm32>` (R87): `MemWrite(off, 4, v)`. -/
def wrAccess (off : Nat) (v : Word) : Input := .access (write32 off v)

/-- `RD <reg>` (R87): `MemRead(off, 4)`. -/
def rdAccess (off : Nat) : Input := .access (read32 off)

/-- `enc(ch)` (R205): the code point of an ASCII character, `0xFF` for every other. -/
def encChar (c : Char) : Byte := if c.toNat ≤ 0x7F then BitVec.ofNat 8 c.toNat else 0xFF#8

/-- The twelve candidate bytes of a string (R205): `enc(q[k])` if `k < m`, else `0x00`. -/
def encCandidate (q : List Char) : List Byte :=
  (List.range Config.codeBufferBytes).map fun k => ((q[k]?).map encChar).getD 0x00#8

/-- `CANDLEN = min(m, 255)` (R205). -/
def candidateLength (q : List Char) : Nat := min q.length 255

/-- `WR64` (R88): the `_HI` half, then the `_LO` half. -/
def wr64Accesses : Wide → Dword → List Input
  | .counter, v => [wrAccess Reg.counterHi.offset (hiWord v), wrAccess Reg.counterLo.offset (loWord v)]
  | .time, v => [wrAccess Reg.timeHi.offset (hiWord v), wrAccess Reg.timeLo.offset (loWord v)]

/-- `LDKEY` (R88, R202): `WR KEYi` for each `i` with `4i < n`, missing bytes 0, then `WR KEYLEN, n`. Both rules stop at
`n = 64`; what a longer secret does is the model's choice (log 26): the same writes go on past `KEY15`. With no bytes it is
`WR KEYLEN, 0` (log 27). -/
def ldkeyAccesses (bytes : List Byte) : List Input :=
  (List.range ((bytes.length + 3) / 4)).map (fun i => wrAccess (0x80 + 4 * i) (packedWord bytes i)) ++
    [wrAccess Reg.keylen.offset (BitVec.ofNat 32 bytes.length)]

/-- `LDCAND` (R88, R205): `WR CAND0..CAND2`, then `WR CANDLEN`. -/
def ldcandAccesses (q : List Char) : List Input :=
  [wrAccess (Reg.cand 0).offset (packedWord (encCandidate q) 0),
    wrAccess (Reg.cand 1).offset (packedWord (encCandidate q) 1),
    wrAccess (Reg.cand 2).offset (packedWord (encCandidate q) 2),
    wrAccess Reg.candlen.offset (BitVec.ofNat 32 (candidateLength q))]

/-- The turns of the host that a statement stands for (R87, R88). -/
def Stmt.expand : Stmt → List Input
  | .wr off v => [wrAccess off v]
  | .rd off => [rdAccess off]
  | .wr64 name v => wr64Accesses name v
  | .ldkey bytes => ldkeyAccesses bytes
  | .ldcand q => ldcandAccesses q
  | .poll busyReads => [.poll busyReads]
  | .cmd i => [wrAccess Reg.cmd.offset (encode i)]

/-- The turns of a host sequence (R87). -/
def expandAll (stmts : List Stmt) : List Input := stmts.flatMap Stmt.expand

/-! ### Running a sequence -/

/-- The most steps one listed turn leads to: `POLL` reads `busyReads` times while busy, gives the sequencer its turn,
and reads once more (R88). -/
def inputCost : Input → Nat
  | .access _ => 1
  | .poll busyReads => busyReads + 3
  | .sequencer => 1
  | .resetAssert => 1
  | .resetRelease => 1

/-- The most steps a list of turns leads to. -/
def scheduleCost (is : List Input) : Nat := (is.map inputCost).sum

/-- `n` steps, stopping at the first fault or refusal. -/
def runSteps : Nat → State → Host.Outcome State Fault Refusal
  | 0, s => .next s
  | n + 1, s =>
    match step s with
    | .next t => runSteps n t
    | .fault f => .fault f
    | .refused r => .refused r

/-- A host sequence run to its end with no other host access among its own: the driver holds a lock for the whole call
(R209). What becomes of turns that are already listed is the model's choice: they are dropped (log 24). -/
def runSequence (stmts : List Stmt) (s : State) : Host.Outcome State Fault Refusal :=
  runSteps (scheduleCost (expandAll stmts)) { s with inputs := expandAll stmts }

/-! ### The call sequences (R203, R204, R206) -/

/-- A driver call's answer, and the machine after it. -/
structure Call (α : Type) where
  answer : Except DriverError α
  state  : State

/-- The `CTRL` word a call writes (R85, R203): `ALG = 0`, with `CSRC`, `DIGITS` and `WINDOW`; `IE = 0` (log 19). -/
def callCtrl (csrc : CounterSource) (digits : BitVec 4) (window : BitVec 8) : Word :=
  Ctrl.toWord { alg := .sha1, csrc := csrc, ie := false, digits := digits, window := window }

/-- R203: load the key, write `CTRL` and `COUNTER`, `CMD GEN`, `POLL`. -/
def generateSequence (secret : List Byte) (digits : BitVec 4) (counter : Dword) (busyReads : Nat) : List Stmt :=
  [.ldkey secret, .wr Reg.ctrl.offset (callCtrl .counter digits 1#8), .wr64 .counter counter, .cmd .gen,
    .poll busyReads]

/-- R204: the clock is read once, as `now`, and written once. -/
def generateCurrentSequence (secret : List Byte) (period : Word) (digits : BitVec 4) (now : Dword)
    (busyReads : Nat) : List Stmt :=
  [.ldkey secret, .wr Reg.ctrl.offset (callCtrl .time digits 1#8), .wr Reg.period.offset period, .wr64 .time now,
    .cmd .gen, .poll busyReads]

/-- R206: the key and the candidate are loaded, `CTRL`, `PERIOD` and `TIME` written, `CMD VERIFY`, `POLL`. -/
def verifySequence (secret : List Byte) (candidate : List Char) (period : Word) (digits : BitVec 4)
    (window : BitVec 8) (now : Dword) (busyReads : Nat) : List Stmt :=
  [.ldkey secret, .ldcand candidate, .wr Reg.ctrl.offset (callCtrl .time digits window),
    .wr Reg.period.offset period, .wr64 .time now, .cmd .verify, .poll busyReads]

/-- The result of a call's `POLL` is the last value read (R88), `s` being the state before the call and `t` the one after
it: `POLL` makes the only reads of the sequence. There is none where no read was served, as while reset is asserted
(R251). -/
def pollResult (s t : State) : Option Word :=
  if t.readLog.length = s.readLog.length then none else t.readLog.head?

/-- `STATUS.BUSY` of a `STATUS` word (R31). -/
def busyOf (status : Word) : Bool := status.getLsbD 0

/-- `STATUS.DONE` of a `STATUS` word (R31). -/
def doneOf (status : Word) : Bool := status.getLsbD 1

/-- `STATUS.ERR` of a `STATUS` word (R31). -/
def errOf (status : Word) : Bool := status.getLsbD 2

/-- `STATUS.MATCH` of a `STATUS` word (R31). -/
def matchOf (status : Word) : Bool := status.getLsbD 3

/-- `STATUS.ERRCODE` of a `STATUS` word (R31). -/
def errcodeOf (status : Word) : BitVec 4 := status.extractLsb' 8 4

/-- The driver reads `CODE_ASCII0..2` and takes "the first `digits` bytes as the code string" (R203). -/
def codeStringRead (digits : BitVec 4) (s : State) : List Byte :=
  (bytesOfWords [readOffset s (Reg.codeAscii 0).offset, readOffset s (Reg.codeAscii 1).offset,
    readOffset s (Reg.codeAscii 2).offset]).take digits.toNat

/-- The three reads of the code string, as the host makes them (R203, R66). -/
def readCodeString (s : State) : State :=
  hostRead (Reg.codeAscii 2).offset (hostRead (Reg.codeAscii 1).offset (hostRead (Reg.codeAscii 0).offset s))

/-- What the result of `POLL` lets the driver do: with `BUSY = 0`, `DONE = 1` and `ERR = 0` the results may be read (R208)
and it is that word; with `ERR = 1` the request fails for good (R207); without completion no result is read (log 25). -/
def completedStatus : Option Word → Except DriverError Word
  | none => .error .notCompleted
  | some status =>
    if busyOf status || !doneOf status then .error .notCompleted
    else if errOf status then .error (.coreError (errcodeOf status))
    else .ok status

/-- The end of a call, `status` the result of its `POLL`: the results are read only where R208 admits it. -/
def finish (answer : Word → State → α) (read : State → State) (status : Option Word) (t : State) : Call α :=
  match completedStatus status with
  | .ok word => { answer := .ok (answer word t), state := read t }
  | .error e => { answer := .error e, state := t }

/-- A call that runs a sequence and then ends as `finish` says. It does not wait before its first write: what a call begun
while a command is pending does (R261) is the model's choice (log 28). -/
def runCall (stmts : List Stmt) (answer : Word → State → α) (read : State → State) (s : State) :
    Host.Outcome (Call α) Fault Refusal :=
  match runSequence stmts s with
  | .next t => .next (finish answer read (pollResult s t) t)
  | .fault f => .fault f
  | .refused r => .refused r

/-- `generate(secret, period_seconds, digits, counter)` on the core (R203); `period_seconds` is unused. -/
def callGenerate (secret : List Byte) (digits : BitVec 4) (counter : Dword) (busyReads : Nat) (s : State) :
    Host.Outcome (Call (List Byte)) Fault Refusal :=
  runCall (generateSequence secret digits counter busyReads) (fun _ => codeStringRead digits) readCodeString s

/-- The source's default `period_seconds=30` (R204, R206). -/
def defaultPeriod : Word := 30#32

/-- The source's default `digits=6` (R204, R206). -/
def defaultDigits : BitVec 4 := 6#4

/-- The source's default `window=1` (R206). -/
def defaultWindow : Int := 1

/-- `generate_current(secret, period_seconds=30, digits=6)` (R204): the code and the seconds remaining. -/
def callGenerateCurrent (secret : List Byte) (period : Word := defaultPeriod) (digits : BitVec 4 := defaultDigits)
    (now : Dword) (busyReads : Nat) (s : State) : Host.Outcome (Call (List Byte × Word)) Fault Refusal :=
  runCall (generateCurrentSequence secret period digits now busyReads)
    (fun _ t => (codeStringRead digits t, readOffset t Reg.remain.offset))
    (fun t => hostRead Reg.remain.offset (readCodeString t)) s

/-- The boundary contract `generate_current(secret)` (R204): every default taken, a 6-digit code and the seconds
remaining. -/
def callGenerateCurrentDefault (secret : List Byte) (now : Dword) (busyReads : Nat) (s : State) :
    Host.Outcome (Call (List Byte × Word)) Fault Refusal :=
  callGenerateCurrent secret (now := now) (busyReads := busyReads) (s := s)

/-- `verify(secret, candidate, period_seconds=30, digits=6, window=1)` (R206): "a negative `window` gives an empty interval and
the result false without using the core; a `window` above 255 ... the driver must refuse it". -/
def callVerify (secret : List Byte) (candidate : List Char) (period : Word := defaultPeriod)
    (digits : BitVec 4 := defaultDigits) (window : Int := defaultWindow) (now : Dword) (busyReads : Nat) (s : State) : Host.Outcome (Call Bool) Fault Refusal :=
  if window < 0 then .next { answer := .ok false, state := s }
  else if 255 < window then .next { answer := .error .windowTooLarge, state := s }
  else
    runCall (verifySequence secret candidate period digits (BitVec.ofNat 8 window.toNat) now busyReads)
      (fun status _ => matchOf status) id s

/-- `verify(secret, candidate)` with every default taken (R206). -/
def callVerifyDefault (secret : List Byte) (candidate : List Char) (now : Dword) (busyReads : Nat) (s : State) :
    Host.Outcome (Call Bool) Fault Refusal :=
  callVerify secret candidate (now := now) (busyReads := busyReads) (s := s)

end Sys2Proof.Machine
end

