-- ==== Sys2Proof/Safety.lean ====
section
/-! DEFINITION. What counts as a safe state and a safe run: the invariant that the rules promise of every state the core
can be in, and a schedule whose every host access the bus performs. -/

namespace Sys2Proof.Machine

/-- What holds of a core with a command pending: the snapshot "always equals the live registers" (R46, R161), it passed
the checks of its command (R160, R227), and `DONE`, `ERR` and `ERRCODE` are as acceptance left them (R160). -/
def State.BusyOk (s : State) : Prop :=
  ∀ op snap, s.phase = .busy op snap →
    snap = s.operands ∧ commandCheck op snap = none ∧ s.status.done = false ∧ s.status.err = false

/-- The error bits agree (R31, R220, R221): `ERR = 1` exactly with an error code, and then `DONE = 1` and `MATCH = 0`. -/
def Status.ErrOk (st : Status) : Prop :=
  (st.err = true ↔ st.errcode ≠ .none) ∧ (st.err = true → st.done = true ∧ st.matched = false)

/-- The result registers hold either their cleared values or one GEN's code (R40, R41, R43): `CODE` is `TRUNC` reduced
for some legal digit count, `CODE_ASCII` its rendering, and bit 31 of `TRUNC` is 0. -/
def ResultRegs.CodeOk (r : ResultRegs) : Prop :=
  r.trunc.toNat < 2 ^ 31 ∧
    ((r.trunc = 0#32 ∧ r.code = 0#32 ∧ r.codeBytes = List.replicate 12 0x00#8) ∨
      ∃ d, 5 ≤ d ∧ d ≤ 9 ∧ r.code.toNat = r.trunc.toNat % 10 ^ d ∧ r.codeBytes = codeBuffer d r.code.toNat)

/-- An idle core with `DONE = 0` has run no command since reset (R31): results and `STATUS` are at their reset values. -/
def State.FreshOk (s : State) : Prop :=
  s.phase = .idle → s.status.done = false → s.results = ResultRegs.zero ∧ s.status = Status.reset

/-- While reset is asserted every register holds its reset value and no command is pending (R250). -/
def State.ResetOk (s : State) : Prop :=
  s.inReset = true →
    s.operands = OperandRegs.reset ∧ s.results = ResultRegs.zero ∧ s.status = Status.reset ∧ s.phase = .idle

/-- The conditions under which GEN and VERIFY are accepted, as R222, R223 and R224 state them. -/
def OperandRegs.Legal (o : OperandRegs) : Prop :=
  1 ≤ o.keylen.toNat ∧ o.keylen.toNat ≤ 64 ∧ 5 ≤ o.digits ∧ o.digits ≤ 9 ∧ (o.ctrl.csrc = .time → o.period ≠ 0#32)

/-- The invariant of the core. -/
structure State.Inv (s : State) : Prop where
  busy  : s.BusyOk
  err   : s.status.ErrOk
  code  : s.results.CodeOk
  fresh : s.FreshOk
  reset : s.ResetOk

/-- Every access still listed is one the bus performs (R61). -/
def State.ScheduleOk (s : State) : Prop := ∀ i ∈ s.inputs, i.wellFormed = true

/-- A safe state: the invariant holds and no listed access will be refused. -/
def State.Safe (s : State) : Prop := s.Inv ∧ s.ScheduleOk

/-! ### What the host cannot learn (R38, R236) -/

/-- Operand registers with the key replaced by zeros. -/
def OperandRegs.hideKey (o : OperandRegs) : OperandRegs := { o with key := Vector.replicate 16 0#32 }

/-- The phase with the snapshot's key replaced by zeros. -/
def Phase.hideKey : Phase → Phase
  | .idle => .idle
  | .busy op snap => .busy op snap.hideKey

/-- A state with every copy of the key replaced by zeros: two states with the same hidden form differ in `KEYBYTES`
alone. What the host has read is part of it. -/
def State.hideKey (s : State) : State := { s with operands := s.operands.hideKey, phase := s.phase.hideKey }

end Sys2Proof.Machine
end

