-- ==== Sys2Proof/Certificates/Slice0/Obligations.lean ====
section
/-! DEFINITION. The statements for the provers. Each docstring names the rule of `spec/` it formalises. -/

open Sys2Proof Sys2Proof.Machine

/-! ### Reset (R250 to R253) -/

/-- R252: the value every offset of the window reads after reset, and the hidden state; the key buffer, which cannot be
read, is 0. -/
def Obligations.ResetHoldsTheStatedValues : Prop :=
  (∀ off, off < 256 → off % 4 = 0 →
    readOffset State.reset off =
      if off = 0x00 then 0x544F5450#32
      else if off = 0x04 then 0x00010000#32
      else if off = 0x08 then 0x00000160#32
      else if off = 0x18 then 30#32
      else 0#32) ∧
  State.reset.operands.keyBytes = List.replicate 64 0#8 ∧
  State.reset.phase = .idle

/-- R250, R251: asserting reset in any state, busy or not, puts every register at its reset value and abandons a running
command; no turn of the host or of the sequencer taken while it is asserted changes that or is served (that such a turn
is dropped and not kept for later is the model's choice, log 5); on its release the core is as after reset. -/
def Obligations.ResetAbandonsTheCommandAndHoldsTheCore : Prop :=
  ∀ (s : State) (turns rest : List Input),
    (∀ i ∈ turns, i ≠ .resetAssert ∧ i ≠ .resetRelease) →
    s.inputs = .resetAssert :: (turns ++ .resetRelease :: rest) →
    ∃ t u, runSteps (1 + turns.length) s = .next t ∧
      t.operands = OperandRegs.reset ∧ t.results = ResultRegs.zero ∧ t.status = Status.reset ∧ t.phase = .idle ∧
      t.irq = false ∧ t.readLog = s.readLog ∧
      Machine.step t = .next u ∧
      u = { State.reset with inputs := rest, readLog := s.readLog }

/-! ### The register window (R20 to R45, R60 to R66) -/

/-- R20, R45: the offset of every register of the map, as a numeral, and the value a read there returns; every
register decodes from its own offset, and the aligned offsets of the window that decode to no register are exactly
`0x5C` and `0xC0` to `0xFC`. -/
def Obligations.RegisterMapIsExact : Prop :=
  (∀ r : Reg, r.offset < 256 ∧ r.offset % 4 = 0 ∧ regAt r.offset = some r) ∧
  (∀ off, off < 256 → off % 4 = 0 → (regAt off = none ↔ off = 0x5C ∨ 0xC0 ≤ off)) ∧
  ([Reg.id, .version, .ctrl, .cmd, .status, .keylen, .period, .candlen].map Reg.offset =
    [0x00, 0x04, 0x08, 0x0C, 0x10, 0x14, 0x18, 0x1C]) ∧
  ([Reg.counterHi, .counterLo, .timeHi, .timeLo, .lastctrHi, .lastctrLo, .trunc, .code, .remain].map Reg.offset =
    [0x20, 0x24, 0x28, 0x2C, 0x30, 0x34, 0x38, 0x3C, 0x40]) ∧
  (∀ i : Fin 3, (Reg.codeAscii i).offset = 0x44 + 4 * i.val ∧ (Reg.cand i).offset = 0x50 + 4 * i.val) ∧
  (∀ i : Fin 8, (Reg.digest i).offset = 0x60 + 4 * i.val) ∧
  (∀ i : Fin 16, (Reg.key i).offset = 0x80 + 4 * i.val) ∧
  (∀ s : State,
    readOffset s 0x00 = 0x544F5450#32 ∧ readOffset s 0x04 = 0x00010000#32 ∧ readOffset s 0x0C = 0#32 ∧
    readOffset s 0x08 = s.operands.ctrl.toWord ∧ readOffset s 0x10 = statusWord s ∧
    readOffset s 0x14 = s.operands.keylen.setWidth 32 ∧ readOffset s 0x18 = s.operands.period ∧
    readOffset s 0x1C = s.operands.candlen.setWidth 32 ∧
    readOffset s 0x20 = s.operands.counterHi ∧ readOffset s 0x24 = s.operands.counterLo ∧
    readOffset s 0x28 = s.operands.timeHi ∧ readOffset s 0x2C = s.operands.timeLo ∧
    readOffset s 0x30 = s.results.lastctrHi ∧ readOffset s 0x34 = s.results.lastctrLo ∧
    readOffset s 0x38 = s.results.trunc ∧ readOffset s 0x3C = s.results.code ∧ readOffset s 0x40 = s.results.remain ∧
    (∀ i : Fin 3, readOffset s (0x44 + 4 * i.val) = s.results.codeAscii[i] ∧
      readOffset s (0x50 + 4 * i.val) = s.operands.cand[i]) ∧
    (∀ i : Fin 8, readOffset s (0x60 + 4 * i.val) = s.results.digest[i]) ∧
    ∀ i : Fin 16, readOffset s (0x80 + 4 * i.val) = 0#32)

/-- R45: a read of a reserved offset returns 0; a write is ignored, and sets `OVERRUN` when it arrives while busy. -/
def Obligations.ReservedOffsetsReadZeroAndIgnoreWrites : Prop :=
  ∀ (s : State) (off : Nat) (v : Word), off % 4 = 0 → (off = 0x5C ∨ (0xC0 ≤ off ∧ off ≤ 0xFC)) →
    hostAccess (read32 off) s = .next { s with readLog := 0#32 :: s.readLog } ∧
    (s.phase = .idle → hostAccess (write32 off v) s = .next s) ∧
    (∀ op snap, s.phase = .busy op snap →
      hostAccess (write32 off v) s = .next { s with status := { s.status with overrun := true } })

/-- R66, R38, R30, R45: a read returns the value of the register to the host and changes nothing else, busy or idle;
`CMD`, every `KEYi` and every reserved offset read 0. -/
def Obligations.ReadsHaveNoSideEffects : Prop :=
  ∀ (s : State) (off : Nat), off < 256 → off % 4 = 0 →
    ∃ v, hostAccess (read32 off) s = .next { s with readLog := v :: s.readLog } ∧
      ((off = 0x0C ∨ off = 0x5C ∨ 0x80 ≤ off) → v = 0#32) ∧
      (∀ r : Reg, off = r.offset → v = readReg s r)

/-- R61, R62, U12: an access of a width other than 32 bits, one outside the window, and an unaligned one each stop with
a bus error, whatever the state; every other access is performed. -/
def Obligations.BusErrorExactlyOnRefusedAccesses : Prop :=
  ∀ (s : State) (off width : Nat) (k : AccessKind),
    ((width ≠ 4 ∨ 256 ≤ off ∨ off % 4 ≠ 0) ↔ ∃ f, hostAccess ⟨.offset off, width, k⟩ s = .fault f) ∧
    (width = 4 → off < 256 → off % 4 = 0 → ∃ t, hostAccess ⟨.offset off, width, k⟩ s = .next t)

/-- R60, U12: host address `BASE + off`, `0 <= off < 256`, reaches the register at offset `off`; an access outside the
window, of any width and alignment, is a bus error (addresses are natural numbers, log 7; which of its reasons the error
names is not said, log 6). -/
def Obligations.HostAddressReachesItsOffset : Prop :=
  ∀ (s : State) (addr width : Nat) (k : AccessKind),
    (∀ off, off < 256 → addr = Config.base + off →
      hostAccess ⟨.address addr, width, k⟩ s = hostAccess ⟨.offset off, width, k⟩ s) ∧
    (addr < Config.base ∨ Config.base + 256 ≤ addr → ∃ f, hostAccess ⟨.address addr, width, k⟩ s = .fault f)

/-- R23, R29: while idle a write to `CTRL` stores bits 0, 1, 2, 7:4 and 15:8 into the fields and ignores the others:
`CTRL` then reads `v AND 0x0000FFF7`, every other offset reads as before, and nothing else changes. -/
def Obligations.CtrlWriteStoresItsFields : Prop :=
  ∀ (s : State) (v : Word), s.phase = .idle →
    ∃ t, hostAccess (write32 0x08 v) s = .next t ∧
      readReg t .ctrl = v &&& 0x0000FFF7#32 ∧
      (t.operands.ctrl.alg = .sha256 ↔ v.getLsbD 0 = true) ∧
      (t.operands.ctrl.csrc = .time ↔ v.getLsbD 1 = true) ∧
      t.operands.ctrl.ie = v.getLsbD 2 ∧
      t.operands.ctrl.digits = v.extractLsb' 4 4 ∧
      t.operands.ctrl.window = v.extractLsb' 8 8 ∧
      (∀ off, off ≠ 0x08 → off % 4 = 0 → readOffset t off = readOffset s off) ∧
      t = { s with operands := { s.operands with ctrl := t.operands.ctrl } }

/-- R32 to R37, R63: while idle a write to an operand register other than `CTRL` and `KEYi` stores its bits (all 32, or
the low 7 of `KEYLEN`, the low 8 of `CANDLEN`), which it then reads back; every other offset reads as before, so the two
halves of `COUNTER` and of `TIME` are written independently, and nothing else changes. -/
def Obligations.OperandRegistersReadBackWhatIsStored : Prop :=
  ∀ (s : State) (v : Word) (r : Reg), s.phase = .idle →
    (r = .keylen ∨ r = .period ∨ r = .candlen ∨ r = .counterHi ∨ r = .counterLo ∨ r = .timeHi ∨ r = .timeLo ∨
      ∃ i, r = .cand i) →
    ∃ t, hostAccess (write32 r.offset v) s = .next t ∧
      readReg t r = (if r = .keylen then v &&& 0x7F#32 else if r = .candlen then v &&& 0xFF#32 else v) ∧
      (∀ off, off ≠ r.offset → off % 4 = 0 → readOffset t off = readOffset s off) ∧
      t.operands.keyBytes = s.operands.keyBytes ∧
      t = { s with operands := t.operands }

/-- R86, R33, R34: a 64-bit operand or `LASTCTR` is `HI * 2^32 + LO` of its two registers, unsigned, as are both
halves of an operand written one after the other; `KEYLEN`, `CANDLEN` and `PERIOD` are the unsigned values of bits
6:0, 7:0 and 31:0 of the word written. -/
def Obligations.WideOperandsAreTheirHalves : Prop :=
  ∀ (s : State) (hi lo : Word), s.phase = .idle →
    (∃ t u, hostAccess (write32 0x20 hi) s = .next t ∧ hostAccess (write32 0x24 lo) t = .next u ∧
      u.operands.counter.toNat = hi.toNat * 2 ^ 32 + lo.toNat ∧ u.operands.time = s.operands.time) ∧
    (∃ t u, hostAccess (write32 0x28 hi) s = .next t ∧ hostAccess (write32 0x2C lo) t = .next u ∧
      u.operands.time.toNat = hi.toNat * 2 ^ 32 + lo.toNat ∧ u.operands.counter = s.operands.counter) ∧
    s.operands.counter.toNat = (readReg s .counterHi).toNat * 2 ^ 32 + (readReg s .counterLo).toNat ∧
    s.operands.time.toNat = (readReg s .timeHi).toNat * 2 ^ 32 + (readReg s .timeLo).toNat ∧
    s.results.lastctr.toNat = (readReg s .lastctrHi).toNat * 2 ^ 32 + (readReg s .lastctrLo).toNat ∧
    (∃ t, hostAccess (write32 0x14 lo) s = .next t ∧ t.operands.keylen.toNat = lo.toNat % 128) ∧
    (∃ t, hostAccess (write32 0x1C lo) s = .next t ∧ t.operands.candlen.toNat = lo.toNat % 256) ∧
    (∃ t, hostAccess (write32 0x18 lo) s = .next t ∧ t.operands.period.toNat = lo.toNat)

/-- R38, R84: while idle a write to `KEYi` stores its four bytes, the most significant in `KEYBYTES[4i]`, and leaves
every other byte of the key; `KEYi` reads 0 before and after, and every offset reads as before. -/
def Obligations.KeyWriteStoresFourBytesAndReadsZero : Prop :=
  ∀ (s : State) (v : Word) (i : Fin 16), s.phase = .idle →
    ∃ t, hostAccess (write32 (0x80 + 4 * i.val) v) s = .next t ∧
      (∀ k, k < 64 → t.operands.keyBytes.getD k 0#8 =
        if k / 4 = i.val then v.extractLsb' (24 - 8 * (k % 4)) 8 else s.operands.keyBytes.getD k 0#8) ∧
      (∀ off, off % 4 = 0 → readOffset t off = readOffset s off) ∧
      readReg t (.key i) = 0#32 ∧
      t = { s with operands := { s.operands with key := t.operands.key } }

/-- R20, R21, R22: while idle a write to a read-only register (`ID`, `VERSION`, or a result register) is ignored; `ID`
and `VERSION` read their constants in every state, busy or idle. -/
def Obligations.ReadOnlyRegistersIgnoreWrites : Prop :=
  (∀ (s : State) (v : Word) (r : Reg), s.phase = .idle →
    (r = .id ∨ r = .version ∨ r = .lastctrHi ∨ r = .lastctrLo ∨ r = .trunc ∨ r = .code ∨ r = .remain ∨
      (∃ i, r = .codeAscii i) ∨ ∃ i, r = .digest i) →
    hostAccess (write32 r.offset v) s = .next s) ∧
  (∀ s : State, hostAccess (read32 0x00) s = .next { s with readLog := 0x544F5450#32 :: s.readLog } ∧
    hostAccess (read32 0x04) s = .next { s with readLog := 0x00010000#32 :: s.readLog })

/-- R31: in either phase a write to `STATUS` clears `OVERRUN` where bit 4 and `IRQ` where bit 5 of the written value is
1, and changes no other field, no other register and no hidden state. -/
def Obligations.StatusWriteClearsWhereOneIsWritten : Prop :=
  ∀ (s : State) (v : Word),
    ∃ t, hostAccess (write32 0x10 v) s = .next t ∧
      readReg t .status = readReg s .status &&& ~~~(v &&& 0x30#32) ∧
      (∀ off, off ≠ 0x10 → off % 4 = 0 → readOffset t off = readOffset s off) ∧
      t = { s with status := { s.status with overrun := t.status.overrun, irq := t.status.irq } }

/-- R65: while busy a write to any offset of the window other than `STATUS` changes no register and no hidden state and
sets `OVERRUN`; this holds for `CMD`, for operand registers, for read-only and reserved offsets. A write to `STATUS` has
its normal effect, and reads are performed normally. -/
def Obligations.WritesWhileBusyAreDroppedAndSetOverrun : Prop :=
  ∀ (s : State) (op : Instr) (snap : OperandRegs) (off : Nat) (v : Word),
    s.phase = .busy op snap → off < 256 → off % 4 = 0 →
    (off ≠ 0x10 → ∃ t, hostAccess (write32 off v) s = .next t ∧
      readReg t .status = readReg s .status ||| 0x10#32 ∧
      (∀ off', off' ≠ 0x10 → off' % 4 = 0 → readOffset t off' = readOffset s off') ∧
      t = { s with status := { s.status with overrun := true } }) ∧
    hostAccess (write32 0x10 v) s = .next { s with status :=
      { s.status with overrun := s.status.overrun && !v.getLsbD 4, irq := s.status.irq && !v.getLsbD 5 } } ∧
    hostAccess (read32 off) s = .next { s with readLog := readOffset s off :: s.readLog }

/-- R31: the layout of `STATUS`; bits 7:6 and 31:12 read 0, `BUSY` is the hidden phase, `ERRCODE` never reads 5 to 15
(R220). -/
def Obligations.StatusWordLayout : Prop :=
  ∀ s : State,
    ((readReg s .status).getLsbD 0 = true ↔ s.phase ≠ .idle) ∧
    (readReg s .status).getLsbD 1 = s.status.done ∧
    (readReg s .status).getLsbD 2 = s.status.err ∧
    (readReg s .status).getLsbD 3 = s.status.matched ∧
    (readReg s .status).getLsbD 4 = s.status.overrun ∧
    (readReg s .status).getLsbD 5 = s.status.irq ∧
    (readReg s .status).extractLsb' 6 2 = 0#2 ∧
    (readReg s .status).extractLsb' 8 4 = s.status.errcode.toBits ∧
    (readReg s .status).extractLsb' 12 20 = 0#20 ∧
    s.status.errcode.toBits.toNat ≤ 4

/-- R85: the host assembles a `CTRL` word as `ALG | (CSRC << 1) | (IE << 2) | (DIGITS << 4) | (WINDOW << 8)`, and
storing it gives exactly those operands; the two words of the rule's example. -/
def Obligations.CtrlWordAssembly : Prop :=
  Ctrl.ofWord 0x00000160#32 = ⟨.sha1, .counter, false, 6#4, 1#8⟩ ∧
  Ctrl.ofWord 0x00000287#32 = ⟨.sha256, .time, true, 8#4, 2#8⟩ ∧
  ∀ (alg csrc ie : Bool) (digits : BitVec 4) (window : BitVec 8),
    let w : Word := (BitVec.ofBool alg).setWidth 32 ||| (BitVec.ofBool csrc).setWidth 32 <<< 1 |||
      (BitVec.ofBool ie).setWidth 32 <<< 2 ||| digits.setWidth 32 <<< 4 ||| window.setWidth 32 <<< 8
    Ctrl.ofWord w = ⟨HashAlg.ofBit alg, CounterSource.ofBit csrc, ie, digits, window⟩ ∧ (Ctrl.ofWord w).toWord = w

/-- R84: a byte array packed into consecutive registers, lowest-numbered byte most significant, is read back byte by
byte; and a group of registers is the packing of its bytes. `ID` is the string "TOTP" in this packing. -/
def Obligations.ByteArrayPackingRoundTrips : Prop :=
  (∀ (a : List Byte) (n i j : Nat), a.length = 4 * n → i < n → j < 4 →
    a.getD (4 * i + j) 0#8 = (packedWord a i).extractLsb' (24 - 8 * j) 8) ∧
  (∀ a : List Byte, ∀ n, a.length = 4 * n → bytesOfWords ((List.range n).map (packedWord a)) = a) ∧
  (∀ ws : List Word, (List.range ws.length).map (packedWord (bytesOfWords ws)) = ws) ∧
  (∀ s : State, readReg s .id = packedWord ("TOTP".toList.map fun c => BitVec.ofNat 8 c.toNat) 0)

/-- R230, R26: `irq` is `STATUS.IRQ AND CTRL.IE` at every instant, as the host reads the two registers. -/
def Obligations.InterruptOutputIsIrqAndEnable : Prop :=
  ∀ s : State, s.irq = ((readReg s .status).getLsbD 5 && (readReg s .ctrl).getLsbD 2)

/-! ### Command words (R80 to R83) -/

/-- R80, R81, R83: a command word decodes by its bits 3:0 and nothing else, 1 as GEN, 2 as VERIFY, 3 as ZEROIZE. Every
command is decoded from each of its words, whatever bits 31:4 are; a word that decodes to a command is one of its
words; every word whose `OP` is `0x0` or `0x4`..`0xF` is rejected by name. -/
def Obligations.DecodeAndEncodeAgree : Prop :=
  (∀ (i : Instr) (ignored : BitVec 28), decode (encode i ignored) = .ok i) ∧
  (∀ (v : Word) (i : Instr), decode v = .ok i → v = encode i (v.extractLsb' 4 28)) ∧
  (∀ v : Word, (decode v = .ok .gen ↔ v.toNat % 16 = 1) ∧ (decode v = .ok .verify ↔ v.toNat % 16 = 2) ∧
    (decode v = .ok .zeroize ↔ v.toNat % 16 = 3)) ∧
  (∀ v : Word, (v.toNat % 16 = 0 ∨ 4 ≤ v.toNat % 16) ↔ decode v = .error (.illegalOp (v.extractLsb' 0 4)))

/-- Every word of X30.1 (`spec/95_test_vectors.md`), its last row `0x00000004` to `0x0000000F` in full, written out from
R80 to R82. -/
def Obligations.CommandWordsOfTheTable : Prop :=
  decode 0x00000001#32 = .ok .gen ∧ decode 0xFFFFFFF1#32 = .ok .gen ∧ decode 0x00000002#32 = .ok .verify ∧
  decode 0x00000003#32 = .ok .zeroize ∧ decode 0x00000000#32 = .error (.illegalOp 0x0#4) ∧
  decode 0x00000010#32 = .error (.illegalOp 0x0#4) ∧
  decode 0x00000004#32 = .error (.illegalOp 0x4#4) ∧ decode 0x00000005#32 = .error (.illegalOp 0x5#4) ∧
  decode 0x00000006#32 = .error (.illegalOp 0x6#4) ∧ decode 0x00000007#32 = .error (.illegalOp 0x7#4) ∧
  decode 0x00000008#32 = .error (.illegalOp 0x8#4) ∧ decode 0x00000009#32 = .error (.illegalOp 0x9#4) ∧
  decode 0x0000000A#32 = .error (.illegalOp 0xA#4) ∧ decode 0x0000000B#32 = .error (.illegalOp 0xB#4) ∧
  decode 0x0000000C#32 = .error (.illegalOp 0xC#4) ∧ decode 0x0000000D#32 = .error (.illegalOp 0xD#4) ∧
  decode 0x0000000E#32 = .error (.illegalOp 0xE#4) ∧ decode 0x0000000F#32 = .error (.illegalOp 0xF#4)

/-! ### Steps (R10, R67, R160, R162) -/

/-- A step runs the decoded command: when the next turn is the host's write of a word to `CMD`, the core is idle, the
reset input is released and the word decodes to `i`, the step is `exec i` with that turn taken. In particular the very
next step of a state given a fetch word runs its command. -/
def Obligations.StepRunsTheDecodedCommand : Prop :=
  (∀ (s : State) (v : Word) (i : Instr) (rest : List Input),
    s.inReset = false → s.phase = .idle → s.inputs = commandAccess v :: rest → decode v = .ok i →
    Machine.step s = Machine.exec i { s with inputs := rest }) ∧
  (∀ (s : State) (w : Nat) (i : Instr), decodeTableWord 32 w = some i →
    Machine.step (s.withFetchWord 32 w) = Machine.exec i { s with phase := .idle, inReset := false })

/-- R162, R10: the sequencer's turn runs the pending command while one is pending, and while idle changes nothing.
That a step with no turn listed is the sequencer's is the model's choice (log 2). -/
def Obligations.StepCompletesThePendingCommand : Prop :=
  ∀ (s : State), s.inReset = false →
    (∀ op snap rest, s.phase = .busy op snap → s.inputs = .sequencer :: rest →
      Machine.step s = Machine.exec op { s with inputs := rest }) ∧
    (∀ op snap, s.phase = .busy op snap → s.inputs = [] → Machine.step s = Machine.exec op s) ∧
    (∀ rest, s.phase = .idle → s.inputs = .sequencer :: rest → Machine.step s = .next { s with inputs := rest }) ∧
    (s.phase = .idle → s.inputs = [] → Machine.step s = .next s)

/-- R61, R67: a host access that is listed next is served by the step, on the state with that turn taken. -/
def Obligations.StepServesTheHostAccess : Prop :=
  ∀ (s : State) (a : Access) (rest : List Input), s.inReset = false → s.inputs = .access a :: rest →
    Machine.step s = hostAccess a { s with inputs := rest }

/-! ### Acceptance and failure (R160, R161, R220 to R226) -/

/-- R160, R161: GEN and VERIFY, taken while idle with `1 <= KEYLEN <= 64`, `5 <= DIGITS <= 9` and, with `CSRC = 1`,
`PERIOD` not 0, are accepted: the snapshot is the operand registers, `BUSY <- 1`, `DONE`, `ERR` and `ERRCODE` 0;
`MATCH`, `OVERRUN`, `IRQ`, every other register and what the host has read keep their values. -/
def Obligations.LegalCommandIsAccepted : Prop :=
  ∀ (s : State) (i : Instr), s.phase = .idle → (i = .gen ∨ i = .verify) →
    1 ≤ s.operands.keylen.toNat → s.operands.keylen.toNat ≤ 64 →
    5 ≤ s.operands.digits → s.operands.digits ≤ 9 →
    (s.operands.ctrl.csrc = .time → s.operands.period ≠ 0#32) →
    ∃ t, Machine.exec i s = .next t ∧
      readReg t .status = (readReg s .status &&& 0x38#32) ||| 1#32 ∧
      (∀ off, off ≠ 0x10 → off % 4 = 0 → readOffset t off = readOffset s off) ∧
      t = { s with
        phase := .busy i s.operands
        status := { s.status with done := false, err := false, errcode := .none } }

/-- R180, R160: ZEROIZE, taken while idle, is accepted whatever the operand registers hold. -/
def Obligations.ZeroizeIsAlwaysAccepted : Prop :=
  ∀ s : State, s.phase = .idle →
    ∃ t, Machine.exec .zeroize s = .next t ∧
      readReg t .status = (readReg s .status &&& 0x38#32) ||| 1#32 ∧
      (∀ off, off ≠ 0x10 → off % 4 = 0 → readOffset t off = readOffset s off) ∧
      t = { s with
        phase := .busy .zeroize s.operands
        status := { s.status with done := false, err := false, errcode := .none } }

/-- R221 to R226: a word written to `CMD` while idle fails with the first failing check in the order `ILLEGAL_CMD`,
`BAD_KEYLEN`, `BAD_DIGITS`, `BAD_PERIOD`, the last three checked for GEN and VERIFY alone: the core stays idle,
`DONE <- 1; ERR <- 1; ERRCODE <- code; MATCH <- 0; IRQ <- 1`, and no other register and no hidden state changes. -/
def Obligations.FirstFailingCheckIsReported : Prop :=
  ∀ (s : State) (v : Word) (code : Nat), s.phase = .idle →
    (code = 1 ∧ (v.toNat % 16 = 0 ∨ 4 ≤ v.toNat % 16)) ∨
    ((v.toNat % 16 = 1 ∨ v.toNat % 16 = 2) ∧
      ((code = 2 ∧ (s.operands.keylen.toNat = 0 ∨ 64 < s.operands.keylen.toNat)) ∨
      (code = 3 ∧ 1 ≤ s.operands.keylen.toNat ∧ s.operands.keylen.toNat ≤ 64 ∧
        (s.operands.digits < 5 ∨ 9 < s.operands.digits)) ∨
      (code = 4 ∧ 1 ≤ s.operands.keylen.toNat ∧ s.operands.keylen.toNat ≤ 64 ∧
        5 ≤ s.operands.digits ∧ s.operands.digits ≤ 9 ∧ s.operands.ctrl.csrc = .time ∧ s.operands.period = 0#32))) →
    ∃ t, hostAccess (write32 0x0C v) s = .next t ∧
      readReg t .status = (readReg s .status &&& 0x10#32) ||| 0x26#32 ||| BitVec.ofNat 32 (code * 256) ∧
      (∀ off, off ≠ 0x10 → off % 4 = 0 → readOffset t off = readOffset s off) ∧
      t = { s with status := t.status } ∧ t.phase = .idle

/-! ### Completion (R162, R170, R174, R180) -/

/-- R170, R162: a pending GEN completes with exactly the results of the rule, computed from its snapshot. -/
def Obligations.GenWritesItsResults : Prop :=
  ∀ (s : State) (snap : OperandRegs), s.phase = .busy .gen snap → snap.Legal →
    ∃ t, Machine.exec .gen s = .next t ∧
      let d := snap.digits
      let c0 : Dword := match snap.ctrl.csrc with
        | .counter => dwordOf snap.counterHi snap.counterLo
        | .time => BitVec.ofNat 64 ((dwordOf snap.timeHi snap.timeLo).toNat / snap.period.toNat)
      let digest := hmac snap.ctrl.alg (snap.keyBytes.take snap.keylen.toNat) (be64 c0)
      let len := digestLength snap.ctrl.alg
      let off := (digest.getD (len - 1) 0#8).toNat % 16
      digest.length = len ∧
      (∀ i : Fin 8, t.results.digest[i] =
        if 4 * i.val < len then
          wordOfBytes (digest.getD (4 * i.val) 0#8) (digest.getD (4 * i.val + 1) 0#8) (digest.getD (4 * i.val + 2) 0#8)
            (digest.getD (4 * i.val + 3) 0#8)
        else 0#32) ∧
      t.results.trunc.toNat = (digest.getD off 0#8).toNat % 128 * 2 ^ 24 + (digest.getD (off + 1) 0#8).toNat * 2 ^ 16 +
        (digest.getD (off + 2) 0#8).toNat * 2 ^ 8 + (digest.getD (off + 3) 0#8).toNat ∧
      t.results.code.toNat = t.results.trunc.toNat % 10 ^ d ∧
      (∀ k, k < 12 → t.results.codeBytes.getD k 0#8 =
        if k < d then BitVec.ofNat 8 (0x30 + t.results.code.toNat / 10 ^ (d - 1 - k) % 10) else 0#8) ∧
      t.results.lastctr = c0 ∧
      t.results.remain.toNat = (match snap.ctrl.csrc with
        | .counter => 0
        | .time => snap.period.toNat - (dwordOf snap.timeHi snap.timeLo).toNat % snap.period.toNat) ∧
      t.phase = .idle ∧
      t = { s with
        results := t.results
        phase := .idle
        status := { s.status with matched := false, done := true, irq := true } }

/-- R172, R173, R174, R162: a pending VERIFY completes with `MATCH = 1` exactly when the candidate equals the code
string of some counter `(t + i) mod 2^64` with `-W <= i <= W`, writes `LASTCTR`, and leaves every other result
register. -/
def Obligations.VerifyMatchesExactlyTheWindow : Prop :=
  ∀ (s : State) (snap : OperandRegs), s.phase = .busy .verify snap → snap.Legal →
    ∃ t, Machine.exec .verify s = .next t ∧
      let d := snap.digits
      let t0 : Dword := match snap.ctrl.csrc with
        | .counter => dwordOf snap.counterHi snap.counterLo
        | .time => BitVec.ofNat 64 ((dwordOf snap.timeHi snap.timeLo).toNat / snap.period.toNat)
      (t.status.matched = true ↔
        ∃ (i : Int) (c : Dword), -(snap.ctrl.window.toNat : Int) ≤ i ∧ i ≤ snap.ctrl.window.toNat ∧
          (c.toNat : Int) = ((t0.toNat : Int) + i) % 2 ^ 64 ∧
          snap.candlen.toNat = d ∧
          ∀ k, k < d → snap.candBytes.getD k 0#8 =
            BitVec.ofNat 8 (0x30 +
              (truncated (hmac snap.ctrl.alg (snap.keyBytes.take snap.keylen.toNat) (be64 c))).toNat % 10 ^ d /
                10 ^ (d - 1 - k) % 10)) ∧
      t.results.lastctr = t0 ∧
      t = { s with
        results := { s.results with lastctrHi := t.results.lastctrHi, lastctrLo := t.results.lastctrLo }
        phase := .idle
        status := { s.status with matched := t.status.matched, done := true, irq := true } }

/-- R180, R162: a pending ZEROIZE completes with the key, the candidate and every result register 0, and writes none of
`CTRL`, `PERIOD`, `COUNTER`, `TIME` and `OVERRUN`; GEN and VERIFY then fail with `BAD_KEYLEN`. -/
def Obligations.ZeroizeErasesKeyCandidateAndResults : Prop :=
  ∀ (s : State) (snap : OperandRegs), s.phase = .busy .zeroize snap →
    ∃ t, Machine.exec .zeroize s = .next t ∧
      t.operands.keyBytes = List.replicate 64 0#8 ∧ t.operands.candBytes = List.replicate 12 0#8 ∧
      readReg t .keylen = 0#32 ∧ readReg t .candlen = 0#32 ∧
      (∀ r : Reg, (r = .lastctrHi ∨ r = .lastctrLo ∨ r = .trunc ∨ r = .code ∨ r = .remain ∨
        (∃ i, r = .codeAscii i) ∨ ∃ i, r = .digest i) → readReg t r = 0#32) ∧
      (∀ r : Reg, (r = .ctrl ∨ r = .period ∨ r = .counterHi ∨ r = .counterLo ∨ r = .timeHi ∨ r = .timeLo) →
        readReg t r = readReg s r) ∧
      t.status = { s.status with matched := false, done := true, irq := true } ∧
      t.phase = .idle ∧ t.inReset = s.inReset ∧ t.inputs = s.inputs ∧ t.readLog = s.readLog ∧
      (∀ i, (i = .gen ∨ i = .verify) → ∃ u, Machine.exec i t = .next u ∧ u.status.errcode = .badKeylen ∧ u.phase = .idle)

/-- R164, R170, R174, R180: the frame of the commands, accepted, failing or completing. `CTRL`, `PERIOD`, `COUNTER`,
`TIME` and `OVERRUN` are never written; only ZEROIZE writes the key and the candidate; VERIFY writes no result register
but `LASTCTR`; only a completion writes one. -/
def Obligations.CommandFrame : Prop :=
  ∀ (i : Instr) (s t : State), Machine.exec i s = .next t →
    t.inReset = s.inReset ∧ t.inputs = s.inputs ∧ t.readLog = s.readLog ∧
    t.status.overrun = s.status.overrun ∧
    (∀ r : Reg, (r = .id ∨ r = .version ∨ r = .ctrl ∨ r = .cmd ∨ r = .period ∨ r = .counterHi ∨ r = .counterLo ∨
      r = .timeHi ∨ r = .timeLo) → readReg t r = readReg s r) ∧
    (i ≠ .zeroize ∨ s.phase = .idle → t.operands = s.operands) ∧
    (i = .verify → ∀ r : Reg, r ≠ .status → r ≠ .lastctrHi → r ≠ .lastctrLo → readReg t r = readReg s r) ∧
    (s.phase = .idle → t.results = s.results)

/-- R48, R38, R173: the results of a command are a function of the command and the snapshot alone, and of the snapshot's
key not beyond `KEYLEN`, of its candidate not beyond `DIGITS`: two completions whose snapshots agree otherwise write the
same results, whatever the two states held before. -/
def Obligations.ResultsDependOnTheSnapshotAlone : Prop :=
  ∀ (s1 s2 t1 t2 : State) (i : Instr) (a b : OperandRegs),
    s1.phase = .busy i a → s2.phase = .busy i b →
    a.ctrl = b.ctrl → a.keylen = b.keylen → a.period = b.period → a.candlen = b.candlen →
    a.counter = b.counter → a.time = b.time →
    (∀ k, k < a.keylen.toNat → a.keyBytes.getD k 0#8 = b.keyBytes.getD k 0#8) →
    (∀ k, k < a.digits → a.candBytes.getD k 0#8 = b.candBytes.getD k 0#8) →
    Machine.exec i s1 = .next t1 → Machine.exec i s2 = .next t2 →
    t1.status.matched = t2.status.matched ∧ t1.results.lastctr = t2.results.lastctr ∧
    (i ≠ .verify → t1.results = t2.results)

/-- R175: if the candidate is GEN's code string at a counter `(t + i) mod 2^64` with `i` in `-W..W`, VERIFY gives
`MATCH = 1`; and `MATCH = 1` only when the candidate equals the code string of some such counter. -/
def Obligations.VerifyAcceptsCodesOfTheWindow : Prop :=
  ∀ (s t : State) (snap : OperandRegs), s.phase = .busy .verify snap → snap.Legal →
    Machine.exec .verify s = .next t →
    (∀ i : Int, -(snap.window : Int) ≤ i → i ≤ snap.window →
      snap.candlen.toNat = snap.digits →
      snap.candBytes.take snap.digits = snap.codeStringAt (windowCounter snap.baseCounter i) →
      t.status.matched = true) ∧
    (t.status.matched = true →
      ∃ i : Int, -(snap.window : Int) ≤ i ∧ i ≤ snap.window ∧
        snap.candBytes.take snap.candlen.toNat = snap.codeStringAt (windowCounter snap.baseCounter i))

/-! ### The datapath (R101 to R147) -/

/-- R101: the message of a counter is its eight bytes, the most significant first. -/
def Obligations.CounterMessageIsBigEndian : Prop :=
  ∀ c : Dword, (counterMessage c).length = 8 ∧
    (∀ k, k < 8 → (counterMessage c).getD k 0#8 = c.extractLsb' (56 - 8 * k) 8) ∧
    (counterMessage c).foldl (fun n b => 256 * n + b.toNat) 0 = c.toNat

/-- R102: `PAD(M)` is `M`, a byte `0x80`, the least number of zero bytes that brings the length to 56 mod 64, and the
length in bits as 8 big-endian bytes. It is a whole number of 64-byte blocks, each of sixteen words `Wt = {M[4t],
M[4t+1], M[4t+2], M[4t+3]}`; 72-, 84- and 96-byte messages, the only ones of this core, pad to two blocks. -/
def Obligations.PaddingIsWholeBlocks : Prop :=
  (∀ m : List Byte, m.length < 2 ^ 61 →
    ∃ z, pad m = m ++ [0x80#8] ++ List.replicate z 0x00#8 ++ be64 (BitVec.ofNat 64 (8 * m.length)) ∧
      (m.length + 1 + z) % 64 = 56 ∧ (∀ y, (m.length + 1 + y) % 64 = 56 → z ≤ y) ∧ (pad m).length % 64 = 0) ∧
  (∀ m : List Byte, 64 * (messageBlocks m).length = (pad m).length ∧
    ∀ b t, b < (messageBlocks m).length → t < 16 →
      ((messageBlocks m).getD b []).getD t 0#32 =
        wordOfBytes ((pad m).getD (64 * b + 4 * t) 0#8) ((pad m).getD (64 * b + 4 * t + 1) 0#8)
          ((pad m).getD (64 * b + 4 * t + 2) 0#8) ((pad m).getD (64 * b + 4 * t + 3) 0#8)) ∧
  (∀ m : List Byte, (m.length = 72 ∨ m.length = 84 ∨ m.length = 96) → (messageBlocks m).length = 2)

/-- R118: a key of at most 64 bytes with trailing zero bytes, while it still fits the block, gives the same digest as
the key without them. -/
def Obligations.TrailingZeroKeyBytesDoNotMatter : Prop :=
  ∀ (alg : HashAlg) (k m : List Byte) (n : Nat), 1 ≤ k.length → k.length + n ≤ 64 →
    hmac alg (k ++ List.replicate n 0x00#8) m = hmac alg k m

/-- R108, R117, R120: the standard examples: `SHA1("abc")`, `SHA256("abc")`, the HMAC-SHA1 of RFC 4226 counter 0, and the
HMAC-SHA256 of X40.1e, whose inner and outer messages have two blocks each (R116). -/
def Obligations.StandardHashExamples : Prop :=
  sha1 [0x61#8, 0x62#8, 0x63#8] =
    bytesOfWords [0xa9993e36#32, 0x4706816a#32, 0xba3e2571#32, 0x7850c26c#32, 0x9cd0d89d#32] ∧
  sha256 [0x61#8, 0x62#8, 0x63#8] =
    bytesOfWords [0xba7816bf#32, 0x8f01cfea#32, 0x414140de#32, 0x5dae2223#32, 0xb00361a3#32, 0x96177a9c#32,
      0xb410ff61#32, 0xf20015ad#32] ∧
  hmac .sha1 (bytesOfWords [0x31323334#32, 0x35363738#32, 0x39303132#32, 0x33343536#32, 0x37383930#32]) (be64 0#64) =
    bytesOfWords [0xcc93cf18#32, 0x508d9493#32, 0x4c64b65d#32, 0x8ba7667f#32, 0xb7cde4b0#32] ∧
  hmac .sha256 (bytesOfWords [0x31323334#32, 0x35363738#32, 0x39303132#32, 0x33343536#32, 0x37383930#32, 0x31323334#32,
      0x35363738#32, 0x39303132#32]) (be64 0#64) =
    bytesOfWords [0xc79f479a#32, 0xbc3c5672#32, 0x24e3f8c8#32, 0xe46b2631#32, 0xd5b3f319#32, 0xa06a1e47#32,
      0x2cbdbee3#32, 0xaa479848#32]

/-- R142, R143: for a digest of either length the offset is the low nibble of its last byte, the four bytes lie inside
the digest, and the truncated value is their big-endian value without the top bit, below `2^31`. -/
def Obligations.DynamicTruncation : Prop :=
  ∀ (alg : HashAlg) (digest : List Byte), digest.length = digestLength alg →
    truncOffset digest = (digest.getD (digestLength alg - 1) 0#8).toNat % 16 ∧
    truncOffset digest + 3 < digestLength alg ∧
    (truncated digest).toNat =
      ((digest.getD (truncOffset digest) 0#8).toNat * 2 ^ 24 + (digest.getD (truncOffset digest + 1) 0#8).toNat * 2 ^ 16 +
        (digest.getD (truncOffset digest + 2) 0#8).toNat * 2 ^ 8 + (digest.getD (truncOffset digest + 3) 0#8).toNat) %
        2 ^ 31

/-- R145, R146: a code string has exactly `d` characters, each a decimal digit, and read as a decimal numeral it is the
code; so two codes below `10^d` with one string are equal. -/
def Obligations.CodeStringIsTheDecimalNumeral : Prop :=
  ∀ (d code : Nat), code < 10 ^ d →
    (codeString d code).length = d ∧
    (∀ b ∈ codeString d code, 0x30 ≤ b.toNat ∧ b.toNat ≤ 0x39) ∧
    (codeString d code).foldl (fun n b => 10 * n + (b.toNat - 0x30)) 0 = code

/-- R141, R147: the time step is `floor(T / P)`, and the seconds remaining lie in `1 .. P`, are `P` at a boundary, and
bring the time to the next boundary. -/
def Obligations.TimeStepAndSecondsRemaining : Prop :=
  ∀ (t : Dword) (p : Word), p ≠ 0#32 →
    (timeStep t p).toNat = t.toNat / p.toNat ∧
    1 ≤ (secondsRemaining t p).toNat ∧ (secondsRemaining t p).toNat ≤ p.toNat ∧
    (t.toNat % p.toNat = 0 → secondsRemaining t p = p) ∧
    (t.toNat + (secondsRemaining t p).toNat) = ((timeStep t p).toNat + 1) * p.toNat

/-! ### Whole-machine rules -/

/-- The invariant holds after reset. -/
def Obligations.InvariantHoldsAtReset : Prop := State.reset.Inv

/-- The invariant is kept by every step, of any agent, from any state that meets it (R31, R40, R41, R43, R46, R161,
R220, R227, R250). -/
def Obligations.EveryStepKeepsTheInvariant : Prop :=
  ∀ s t : State, s.Inv → Machine.step s = .next t → t.Inv

/-- R227: from a safe state every step answers a next state, which is safe again: no command stops the machine, and no
synchronous error exists but the refused access. -/
def Obligations.SafeStatesNeverStop : Prop :=
  ∀ s : State, s.Safe → ∃ t, Machine.step s = .next t ∧ t.Safe

/-- R163, under the model's reading of weak fairness (log 2), and of `POLL`, whose loop always ends (log 9): from a safe
state, when all listed turns have been taken
and one more step, no command is pending; no command stays busy for ever. -/
def Obligations.EveryScheduleEndsIdle : Prop :=
  ∀ s : State, s.Safe →
    ∃ t, runSteps (scheduleCost s.inputs + 1) s = .next t ∧ t.inputs = [] ∧ t.phase = .idle ∧ t.Safe

/-- R161, R163, R66, R260: a command accepted from idle gives, after any list of host accesses that the bus performs
and then the sequencer's turn, the results of the operands it was accepted with: no access in between reaches the
snapshot, and every result register read in between is the old one. (A `POLL` between them is not spoken of here:
PollEndsWithBusyZero does.) -/
def Obligations.ResultsDoNotDependOnTheSchedule : Prop :=
  ∀ (s : State) (v : Word) (i : Instr) (accesses : List Access) (rest : List Input),
    s.inReset = false → s.phase = .idle → decode v = .ok i → commandCheck i s.operands = none →
    (∀ a ∈ accesses, a.wellFormed = true) →
    s.inputs = commandAccess v :: (accesses.map Input.access ++ .sequencer :: rest) →
    ∃ t u, runSteps (1 + accesses.length) s = .next t ∧
      t.phase = .busy i s.operands ∧ t.operands = s.operands ∧ t.results = s.results ∧
      t.status.matched = s.status.matched ∧ t.inputs = .sequencer :: rest ∧
      Machine.step t = .next u ∧ u.phase = .idle ∧ u.inputs = rest ∧
      (i = .gen → u.results = genResults s.operands ∧ u.operands = s.operands ∧ u.status.matched = false) ∧
      (i = .verify → u.results = verifyResults s.operands s.results ∧ u.operands = s.operands ∧
        u.status.matched = s.operands.verifies) ∧
      (i = .zeroize → u.results = ResultRegs.zero ∧ u.operands = zeroizeOperands s.operands ∧
        u.status.matched = false)

/-- R231: `IRQ` goes from 1 to 0 in a step only by a host write to `STATUS` with bit 5 = 1 or by reset; it goes from 0
to 1 only by the sequencer's turn that completes a command (listed, or taken with no turn listed, log 2) or by a write
to `CMD` that fails at acceptance. -/
def Obligations.IrqChangesOnlyAsStated : Prop :=
  ∀ s t : State, Machine.step s = .next t →
    (s.status.irq = true → t.status.irq = false →
      ∃ rest, s.inputs = .resetAssert :: rest ∨ (s.inputs = .resetRelease :: rest ∧ s.inReset = true) ∨
        (s.inReset = false ∧ ∃ a v, s.inputs = .access a :: rest ∧ a.target.windowOffset = some 0x10 ∧
          a.kind = .write v ∧ v.getLsbD 5 = true)) ∧
    (s.status.irq = false → t.status.irq = true →
      s.inReset = false ∧
        ((∃ op snap, s.phase = .busy op snap ∧ (s.inputs = [] ∨ ∃ rest, s.inputs = .sequencer :: rest) ∧
            t.phase = .idle ∧ t.status.done = true) ∨
          ∃ a v rest, s.phase = .idle ∧ s.inputs = .access a :: rest ∧ a.target.windowOffset = some 0x0C ∧
            a.kind = .write v ∧ t.phase = .idle ∧ t.status.err = true ∧ t.status.done = true))

/-- R65, R31, R164: `OVERRUN` goes from 0 to 1 in a step only when a host write to an offset other than `STATUS` arrives
while a command is pending. -/
def Obligations.OverrunIsSetOnlyByAWriteWhileBusy : Prop :=
  ∀ s t : State, Machine.step s = .next t → s.status.overrun = false → t.status.overrun = true →
    s.phase ≠ .idle ∧ s.inReset = false ∧
      ∃ a v off rest, s.inputs = .access a :: rest ∧ a.kind = .write v ∧ a.target.windowOffset = some off ∧ off ≠ 0x10

/-- R164, R180, R250, R65: `KEYBYTES` change in a step only by a write to a `KEYi` while idle, by the completion of
ZEROIZE, or by reset. -/
def Obligations.KeyChangesOnlyByKeyWriteZeroizeOrReset : Prop :=
  ∀ s t : State, Machine.step s = .next t → t.operands.key ≠ s.operands.key →
    (∃ rest, s.inputs = .resetAssert :: rest ∨ (s.inputs = .resetRelease :: rest ∧ s.inReset = true)) ∨
    (∃ a v off rest, s.inputs = .access a :: rest ∧ s.phase = .idle ∧ s.inReset = false ∧ a.kind = .write v ∧
      a.target.windowOffset = some off ∧ 0x80 ≤ off ∧ off < 0xC0) ∨
    (∃ snap, s.phase = .busy .zeroize snap ∧ t.phase = .idle)

/-- R66, R162, R221: a result register changes in a step only by a completion or by reset. -/
def Obligations.ResultsChangeOnlyAtCompletionOrReset : Prop :=
  ∀ s t : State, Machine.step s = .next t → t.results ≠ s.results →
    (∃ rest, s.inputs = .resetAssert :: rest ∨ (s.inputs = .resetRelease :: rest ∧ s.inReset = true)) ∨
    (s.phase ≠ .idle ∧ t.phase = .idle ∧ t.status.done = true ∧ t.status.irq = true)

/-- R38, R236: two states that differ in `KEYBYTES` alone (in the registers and in the snapshot) give the host the same
answer to every access, and differ in `KEYBYTES` alone after it: no bus access reads a bit of the key. -/
def Obligations.NoAccessRevealsTheKey : Prop :=
  ∀ (s1 s2 : State) (a : Access), s1.hideKey = s2.hideKey →
    (∀ t1, hostAccess a s1 = .next t1 → ∃ t2, hostAccess a s2 = .next t2 ∧ t1.hideKey = t2.hideKey ∧
      t1.readLog = t2.readLog) ∧
    (∀ f, hostAccess a s1 = .fault f → hostAccess a s2 = .fault f)

/-- R88, with the schedule inside the loop as log 9 has it: `POLL` ends: from any state with a command pending and any
number of reads that see `BUSY = 1`, it completes the command, has read `BUSY = 1` exactly that often, and its last
read is the `STATUS` after completion, with `BUSY = 0`. -/
def Obligations.PollEndsWithBusyZero : Prop :=
  ∀ (s : State) (op : Instr) (snap : OperandRegs) (n : Nat) (rest : List Input),
    s.inReset = false → s.phase = .busy op snap → s.inputs = .poll n :: rest →
    ∃ t u, runSteps (n + 3) s = .next t ∧ Machine.exec op { s with inputs := rest } = .next u ∧
      t = { u with readLog := readReg u .status :: (List.replicate n (readReg s .status) ++ s.readLog) } ∧
      (readReg u .status).getLsbD 0 = false

/-! ### The host driver (R200 to R209) -/

/-- R200: `normalize_hex_seed` succeeds only with 64 characters of `0-9a-f`, and is idempotent: its result normalizes
to itself. Neither the case of the raw letters (any of them put in the other case) nor spaces, tabs, newlines and
carriage returns anywhere in the string change the result. -/
def Obligations.SeedNormalizationIsIdempotent : Prop :=
  ∀ (raw hex : List Char), normalizeHexSeed raw = .ok hex →
    hex.length = 64 ∧
    (∀ c ∈ hex, (0x30 ≤ c.toNat ∧ c.toNat ≤ 0x39) ∨ (0x61 ≤ c.toNat ∧ c.toNat ≤ 0x66)) ∧
    normalizeHexSeed hex = .ok hex ∧
    (∀ recased : List Char,
      List.Forall₂ (fun c d => d.toNat = c.toNat ∨ (0x41 ≤ c.toNat ∧ c.toNat ≤ 0x5A ∧ d.toNat = c.toNat + 0x20) ∨
        (0x41 ≤ d.toNat ∧ d.toNat ≤ 0x5A ∧ c.toNat = d.toNat + 0x20)) raw recased →
      normalizeHexSeed recased = .ok hex) ∧
    (∀ pre post ws : List Char, raw = pre ++ post →
      (∀ c ∈ ws, c.toNat = 0x20 ∨ c.toNat = 0x09 ∨ c.toNat = 0x0A ∨ c.toNat = 0x0D) →
      normalizeHexSeed (pre ++ ws ++ post) = .ok hex)

/-- R200: a string of hex digits of either case and of the four named whitespace characters normalizes to its hex
digits in lower case when there are 64 of them, and fails with `ValidationError` otherwise; a string with another
printing ASCII character fails (that such a character is no whitespace is log 14). -/
def Obligations.SeedNormalizationAcceptsExactlySeeds : Prop :=
  (∀ raw : List Char,
    (∀ c ∈ raw, isNamedWhitespace c = true ∨ (0x30 ≤ c.toNat ∧ c.toNat ≤ 0x39) ∨ (0x41 ≤ c.toNat ∧ c.toNat ≤ 0x46) ∨
      (0x61 ≤ c.toNat ∧ c.toNat ≤ 0x66)) →
    normalizeHexSeed raw =
      if (raw.filter fun c => !isNamedWhitespace c).length = 64 then
        .ok ((raw.filter fun c => !isNamedWhitespace c).map fun c =>
          if 0x41 ≤ c.toNat ∧ c.toNat ≤ 0x46 then Char.ofNat (c.toNat + 0x20) else c)
      else .error .validation) ∧
  (∀ (raw : List Char) (c : Char), c ∈ raw → 0x21 ≤ c.toNat → c.toNat ≤ 0x7E →
    (c.toNat < 0x30 ∨ 0x39 < c.toNat) → (c.toNat < 0x41 ∨ 0x46 < c.toNat) → (c.toNat < 0x61 ∨ 0x66 < c.toNat) →
    normalizeHexSeed raw = .error .validation)

/-- R201: the 64 characters `h` of a normalized seed give 32 bytes, `secret[j] = 16 * nib(h[2j]) + nib(h[2j+1])`, with
`nib('0'..'9') = 0..9` and `nib('a'..'f') = 10..15`. -/
def Obligations.HexToBytesPairsNibbles : Prop :=
  ['0', '1', '2', '3', '4', '5', '6', '7', '8', '9'].map nib = [0, 1, 2, 3, 4, 5, 6, 7, 8, 9] ∧
  ['a', 'b', 'c', 'd', 'e', 'f'].map nib = [10, 11, 12, 13, 14, 15] ∧
  ∀ h : List Char, h.length = 64 → (∀ c ∈ h, isLowerHex c = true) →
    (hexToBytes h).length = 32 ∧
    ∀ j, j < 32 → ((hexToBytes h).getD j 0#8).toNat = 16 * nib (h.getD (2 * j) '0') + nib (h.getD (2 * j + 1) '0')

/-- R202, R88: `LDKEY` of 1 to 64 bytes, run on an idle core (other listed turns dropped, log 24), makes those bytes
the key of the next command and their number `KEYLEN`, and changes no other register. -/
def Obligations.LdkeyLoadsTheKey : Prop :=
  ∀ (s : State) (secret : List Byte), s.phase = .idle → s.inReset = false → 1 ≤ secret.length → secret.length ≤ 64 →
    ∃ t, runSequence [.ldkey secret] s = .next t ∧
      t.operands.secret = secret ∧ t.operands.keylen.toNat = secret.length ∧
      t = { s with
        inputs := []
        operands := { s.operands with key := t.operands.key, keylen := t.operands.keylen } }

/-- R205, R173: after `LDCAND` of any string on an idle core, run whole as log 19 has it and with other listed turns
dropped (log 24), `EQ` with a code string of `DIGITS` characters is true exactly when the string equals the code,
character by character. -/
def Obligations.CandidateEqualityIsStringEquality : Prop :=
  ∀ (s : State) (candidate : List Char) (code : Nat), s.phase = .idle → s.inReset = false →
    5 ≤ s.operands.digits → s.operands.digits ≤ 9 →
    ∃ t, runSequence [.ldcand candidate] s = .next t ∧
      (t.operands.candidateEquals (codeString t.operands.digits code) = true ↔
        candidate.map Char.toNat = (codeString s.operands.digits code).map BitVec.toNat) ∧
      t = { s with
        inputs := []
        operands := { s.operands with cand := t.operands.cand, candlen := t.operands.candlen } }

/-- R203, with the choices of log 9, log 19 and log 24: `generate` on an idle core, whatever it held before and
however long the command takes, answers the code of HMAC-SHA1 of the counter, truncated, reduced and rendered in
`digits` digits. -/
def Obligations.DriverGenerateAnswersTheCode : Prop :=
  ∀ (secret : List Byte) (digits : BitVec 4) (counter : Dword) (busyReads : Nat) (s : State),
    s.phase = .idle → s.inReset = false → 1 ≤ secret.length → secret.length ≤ 64 →
    5 ≤ digits.toNat → digits.toNat ≤ 9 →
    ∃ call, callGenerate secret digits counter busyReads s = .next call ∧
      call.answer = .ok (codeString digits.toNat
        ((truncated (hmac .sha1 secret (be64 counter))).toNat % 10 ^ digits.toNat)) ∧
      call.state.phase = .idle

/-- R204, with the choices of log 9, log 19 and log 24: `generate_current` answers the code of the time step
`floor(now / period)` and the seconds remaining, `period - (now mod period)`. -/
def Obligations.DriverGenerateCurrentAnswersCodeAndRemaining : Prop :=
  ∀ (secret : List Byte) (period : Word) (digits : BitVec 4) (now : Dword) (busyReads : Nat) (s : State),
    s.phase = .idle → s.inReset = false → 1 ≤ secret.length → secret.length ≤ 64 →
    5 ≤ digits.toNat → digits.toNat ≤ 9 → period ≠ 0#32 →
    ∃ call code remain, callGenerateCurrent secret period digits now busyReads s = .next call ∧
      call.answer = .ok (code, remain) ∧
      code = codeString digits.toNat
        ((truncated (hmac .sha1 secret (be64 (BitVec.ofNat 64 (now.toNat / period.toNat))))).toNat % 10 ^ digits.toNat) ∧
      remain.toNat = period.toNat - now.toNat % period.toNat

/-- R206, with the choices of log 9, log 19 and log 24: `verify` with a window of 0 to 255 answers true exactly when the
candidate string is the code of some step `(floor(now / period) + i) mod 2^64`, `-window <= i <= window`; a negative
window answers false without using the core, one above 255 is refused. -/
def Obligations.DriverVerifyAnswersTheWindow : Prop :=
  ∀ (secret : List Byte) (candidate : List Char) (period : Word) (digits : BitVec 4) (window : Int) (now : Dword)
    (busyReads : Nat) (s : State),
    (window < 0 → callVerify secret candidate period digits window now busyReads s =
      .next { answer := .ok false, state := s }) ∧
    (255 < window → callVerify secret candidate period digits window now busyReads s =
      .next { answer := .error .windowTooLarge, state := s }) ∧
    (0 ≤ window → window ≤ 255 → s.phase = .idle → s.inReset = false → 1 ≤ secret.length → secret.length ≤ 64 →
      5 ≤ digits.toNat → digits.toNat ≤ 9 → period ≠ 0#32 →
      ∃ call b, callVerify secret candidate period digits window now busyReads s = .next call ∧
        call.answer = .ok b ∧
        (b = true ↔ ∃ i : Int, -window ≤ i ∧ i ≤ window ∧
          candidate.map Char.toNat = (codeString digits.toNat
            ((truncated (hmac .sha1 secret (be64 (BitVec.ofInt 64 (((now.toNat / period.toNat : Nat) : Int) + i))))).toNat %
              10 ^ digits.toNat)).map BitVec.toNat))

/-- R204, R206, with the choices of log 9, log 19 and log 24: with their defaults taken, `generate_current(secret)`
answers the 6-digit code of the step `floor(now / 30)` and the seconds to the next multiple of 30, and `verify(secret,
candidate)` answers true exactly for the 6-digit codes of that step and its two neighbours. -/
def Obligations.DriverDefaultsAreTheSources : Prop :=
  ∀ (secret : List Byte) (candidate : List Char) (now : Dword) (busyReads : Nat) (s : State),
    s.phase = .idle → s.inReset = false → 1 ≤ secret.length → secret.length ≤ 64 →
    (∃ call code remain, callGenerateCurrentDefault secret now busyReads s = .next call ∧
      call.answer = .ok (code, remain) ∧
      code = codeString 6 ((truncated (hmac .sha1 secret (be64 (BitVec.ofNat 64 (now.toNat / 30))))).toNat % 1000000) ∧
      remain.toNat = 30 - now.toNat % 30) ∧
    (∃ call b, callVerifyDefault secret candidate now busyReads s = .next call ∧ call.answer = .ok b ∧
      (b = true ↔ ∃ i : Int, (i = -1 ∨ i = 0 ∨ i = 1) ∧
        candidate.map Char.toNat = (codeString 6
          ((truncated (hmac .sha1 secret (be64 (BitVec.ofInt 64 (((now.toNat / 30 : Nat) : Int) + i))))).toNat %
            1000000)).map BitVec.toNat))

/-- R207, R208, R222 to R224, with the choices of log 9, log 19, log 24, log 25 and log 27: a precondition the driver breaks
comes back as the core's error from each of the three calls: an empty secret `BAD_KEYLEN`, a digit count outside 5..9
`BAD_DIGITS`, a zero period (for the two calls that take their counter from the time) `BAD_PERIOD`. Where no read of
`STATUS` shows completion, as while reset is asserted, no result is read. -/
def Obligations.DriverReportsTheCoreError : Prop :=
  ∀ (secret : List Byte) (candidate : List Char) (period : Word) (digits : BitVec 4) (window : Int)
    (counter now : Dword) (busyReads : Nat) (s : State),
    secret.length ≤ 64 → 0 ≤ window → window ≤ 255 →
    ∃ gen cur ver, callGenerate secret digits counter busyReads s = .next gen ∧
      callGenerateCurrent secret period digits now busyReads s = .next cur ∧
      callVerify secret candidate period digits window now busyReads s = .next ver ∧
      (s.phase = .idle → s.inReset = false → secret = [] →
        gen.answer = .error (.coreError 2#4) ∧ cur.answer = .error (.coreError 2#4) ∧
        ver.answer = .error (.coreError 2#4)) ∧
      (s.phase = .idle → s.inReset = false → secret ≠ [] → (digits.toNat < 5 ∨ 9 < digits.toNat) →
        gen.answer = .error (.coreError 3#4) ∧ cur.answer = .error (.coreError 3#4) ∧
        ver.answer = .error (.coreError 3#4)) ∧
      (s.phase = .idle → s.inReset = false → secret ≠ [] → 5 ≤ digits.toNat → digits.toNat ≤ 9 → period = 0#32 →
        cur.answer = .error (.coreError 4#4) ∧ ver.answer = .error (.coreError 4#4)) ∧
      (s.inReset = true →
        gen.answer = .error .notCompleted ∧ cur.answer = .error .notCompleted ∧ ver.answer = .error .notCompleted ∧
        gen.state.readLog = s.readLog ∧ cur.state.readLog = s.readLog ∧ ver.state.readLog = s.readLog)
end

