-- ==== Sys2Proof/Laws/State.lean ====
section
/-! SUPPORT. One lemma per field per update of State, so that no proof unfolds a record update. -/

namespace Sys2Proof.Machine

/-! ### A write to an operand register (R66) -/

@[simp] theorem writeReg_operands (s : State) (r : Reg) (v : Word) : (writeReg s r v).operands = s.operands.write v r := rfl
@[simp] theorem writeReg_results (s : State) (r : Reg) (v : Word) : (writeReg s r v).results = s.results := rfl
@[simp] theorem writeReg_status (s : State) (r : Reg) (v : Word) : (writeReg s r v).status = s.status := rfl
@[simp] theorem writeReg_phase (s : State) (r : Reg) (v : Word) : (writeReg s r v).phase = s.phase := rfl
@[simp] theorem writeReg_inReset (s : State) (r : Reg) (v : Word) : (writeReg s r v).inReset = s.inReset := rfl
@[simp] theorem writeReg_inputs (s : State) (r : Reg) (v : Word) : (writeReg s r v).inputs = s.inputs := rfl
@[simp] theorem writeReg_readLog (s : State) (r : Reg) (v : Word) : (writeReg s r v).readLog = s.readLog := rfl

/-! ### A write to `STATUS` (R31) -/

@[simp] theorem acknowledge_operands (s : State) (v : Word) : (acknowledge s v).operands = s.operands := rfl
@[simp] theorem acknowledge_results (s : State) (v : Word) : (acknowledge s v).results = s.results := rfl
@[simp] theorem acknowledge_status (s : State) (v : Word) : (acknowledge s v).status = s.status.acknowledge v := rfl
@[simp] theorem acknowledge_phase (s : State) (v : Word) : (acknowledge s v).phase = s.phase := rfl
@[simp] theorem acknowledge_inReset (s : State) (v : Word) : (acknowledge s v).inReset = s.inReset := rfl
@[simp] theorem acknowledge_inputs (s : State) (v : Word) : (acknowledge s v).inputs = s.inputs := rfl
@[simp] theorem acknowledge_readLog (s : State) (v : Word) : (acknowledge s v).readLog = s.readLog := rfl

/-! ### A write dropped while busy (R65) -/

@[simp] theorem overrun_operands (s : State) : (overrun s).operands = s.operands := rfl
@[simp] theorem overrun_results (s : State) : (overrun s).results = s.results := rfl
@[simp] theorem overrun_status (s : State) : (overrun s).status = s.status.overran := rfl
@[simp] theorem overrun_phase (s : State) : (overrun s).phase = s.phase := rfl
@[simp] theorem overrun_inReset (s : State) : (overrun s).inReset = s.inReset := rfl
@[simp] theorem overrun_inputs (s : State) : (overrun s).inputs = s.inputs := rfl
@[simp] theorem overrun_readLog (s : State) : (overrun s).readLog = s.readLog := rfl

/-! ### A read handed to the host (R66) -/

@[simp] theorem logRead_operands (s : State) (v : Word) : (logRead s v).operands = s.operands := rfl
@[simp] theorem logRead_results (s : State) (v : Word) : (logRead s v).results = s.results := rfl
@[simp] theorem logRead_status (s : State) (v : Word) : (logRead s v).status = s.status := rfl
@[simp] theorem logRead_phase (s : State) (v : Word) : (logRead s v).phase = s.phase := rfl
@[simp] theorem logRead_inReset (s : State) (v : Word) : (logRead s v).inReset = s.inReset := rfl
@[simp] theorem logRead_inputs (s : State) (v : Word) : (logRead s v).inputs = s.inputs := rfl
@[simp] theorem logRead_readLog (s : State) (v : Word) : (logRead s v).readLog = v :: s.readLog := rfl

/-! ### `MemRead` (R66) -/

@[simp] theorem hostRead_operands (off : Nat) (s : State) : (hostRead off s).operands = s.operands := rfl
@[simp] theorem hostRead_results (off : Nat) (s : State) : (hostRead off s).results = s.results := rfl
@[simp] theorem hostRead_status (off : Nat) (s : State) : (hostRead off s).status = s.status := rfl
@[simp] theorem hostRead_phase (off : Nat) (s : State) : (hostRead off s).phase = s.phase := rfl
@[simp] theorem hostRead_inReset (off : Nat) (s : State) : (hostRead off s).inReset = s.inReset := rfl
@[simp] theorem hostRead_inputs (off : Nat) (s : State) : (hostRead off s).inputs = s.inputs := rfl
@[simp] theorem hostRead_readLog (off : Nat) (s : State) : (hostRead off s).readLog = readOffset s off :: s.readLog := rfl

/-! ### A failure at acceptance (R221) -/

@[simp] theorem raiseError_operands (c : ErrCode) (s : State) : (raiseError c s).operands = s.operands := rfl
@[simp] theorem raiseError_results (c : ErrCode) (s : State) : (raiseError c s).results = s.results := rfl
@[simp] theorem raiseError_status (c : ErrCode) (s : State) : (raiseError c s).status = s.status.failed c := rfl
@[simp] theorem raiseError_phase (c : ErrCode) (s : State) : (raiseError c s).phase = s.phase := rfl
@[simp] theorem raiseError_inReset (c : ErrCode) (s : State) : (raiseError c s).inReset = s.inReset := rfl
@[simp] theorem raiseError_inputs (c : ErrCode) (s : State) : (raiseError c s).inputs = s.inputs := rfl
@[simp] theorem raiseError_readLog (c : ErrCode) (s : State) : (raiseError c s).readLog = s.readLog := rfl

/-! ### Acceptance (R160, R161) -/

@[simp] theorem begin_operands (op : Instr) (s : State) : (begin op s).operands = s.operands := rfl
@[simp] theorem begin_results (op : Instr) (s : State) : (begin op s).results = s.results := rfl
@[simp] theorem begin_status (op : Instr) (s : State) : (begin op s).status = s.status.accepted := rfl
@[simp] theorem begin_phase (op : Instr) (s : State) : (begin op s).phase = .busy op s.operands := rfl
@[simp] theorem begin_inReset (op : Instr) (s : State) : (begin op s).inReset = s.inReset := rfl
@[simp] theorem begin_inputs (op : Instr) (s : State) : (begin op s).inputs = s.inputs := rfl
@[simp] theorem begin_readLog (op : Instr) (s : State) : (begin op s).readLog = s.readLog := rfl

/-! ### Completion (R162) -/

@[simp] theorem complete_operands (o : OperandRegs) (r : ResultRegs) (m : Bool) (s : State) : (complete o r m s).operands = o := rfl
@[simp] theorem complete_results (o : OperandRegs) (r : ResultRegs) (m : Bool) (s : State) : (complete o r m s).results = r := rfl
@[simp] theorem complete_status (o : OperandRegs) (r : ResultRegs) (m : Bool) (s : State) : (complete o r m s).status = s.status.completed m := rfl
@[simp] theorem complete_phase (o : OperandRegs) (r : ResultRegs) (m : Bool) (s : State) : (complete o r m s).phase = .idle := rfl
@[simp] theorem complete_inReset (o : OperandRegs) (r : ResultRegs) (m : Bool) (s : State) : (complete o r m s).inReset = s.inReset := rfl
@[simp] theorem complete_inputs (o : OperandRegs) (r : ResultRegs) (m : Bool) (s : State) : (complete o r m s).inputs = s.inputs := rfl
@[simp] theorem complete_readLog (o : OperandRegs) (r : ResultRegs) (m : Bool) (s : State) : (complete o r m s).readLog = s.readLog := rfl

/-! ### Reset of the registers (R250) -/

@[simp] theorem clearRegisters_operands (s : State) : (clearRegisters s).operands = OperandRegs.reset := rfl
@[simp] theorem clearRegisters_results (s : State) : (clearRegisters s).results = ResultRegs.zero := rfl
@[simp] theorem clearRegisters_status (s : State) : (clearRegisters s).status = Status.reset := rfl
@[simp] theorem clearRegisters_phase (s : State) : (clearRegisters s).phase = .idle := rfl
@[simp] theorem clearRegisters_inReset (s : State) : (clearRegisters s).inReset = s.inReset := rfl
@[simp] theorem clearRegisters_inputs (s : State) : (clearRegisters s).inputs = s.inputs := rfl
@[simp] theorem clearRegisters_readLog (s : State) : (clearRegisters s).readLog = s.readLog := rfl

/-! ### Asserting the reset input (R250) -/

@[simp] theorem resetAssert_operands (s : State) : (resetAssert s).operands = OperandRegs.reset := rfl
@[simp] theorem resetAssert_results (s : State) : (resetAssert s).results = ResultRegs.zero := rfl
@[simp] theorem resetAssert_status (s : State) : (resetAssert s).status = Status.reset := rfl
@[simp] theorem resetAssert_phase (s : State) : (resetAssert s).phase = .idle := rfl
@[simp] theorem resetAssert_inReset (s : State) : (resetAssert s).inReset = true := rfl
@[simp] theorem resetAssert_inputs (s : State) : (resetAssert s).inputs = s.inputs := rfl
@[simp] theorem resetAssert_readLog (s : State) : (resetAssert s).readLog = s.readLog := rfl

/-! ### The fields of `STATUS` after each of its updates (R31) -/

@[simp] theorem Status.acknowledge_done (v : Word) (st : Status) : (st.acknowledge v).done = st.done := rfl
@[simp] theorem Status.acknowledge_err (v : Word) (st : Status) : (st.acknowledge v).err = st.err := rfl
@[simp] theorem Status.acknowledge_matched (v : Word) (st : Status) : (st.acknowledge v).matched = st.matched := rfl
@[simp] theorem Status.acknowledge_overrun (v : Word) (st : Status) : (st.acknowledge v).overrun = (st.overrun && !v.getLsbD 4) := rfl
@[simp] theorem Status.acknowledge_irq (v : Word) (st : Status) : (st.acknowledge v).irq = (st.irq && !v.getLsbD 5) := rfl
@[simp] theorem Status.acknowledge_errcode (v : Word) (st : Status) : (st.acknowledge v).errcode = st.errcode := rfl
@[simp] theorem Status.accepted_done (st : Status) : (st.accepted).done = false := rfl
@[simp] theorem Status.accepted_err (st : Status) : (st.accepted).err = false := rfl
@[simp] theorem Status.accepted_matched (st : Status) : (st.accepted).matched = st.matched := rfl
@[simp] theorem Status.accepted_overrun (st : Status) : (st.accepted).overrun = st.overrun := rfl
@[simp] theorem Status.accepted_irq (st : Status) : (st.accepted).irq = st.irq := rfl
@[simp] theorem Status.accepted_errcode (st : Status) : (st.accepted).errcode = .none := rfl
@[simp] theorem Status.failed_done (c : ErrCode) (st : Status) : (st.failed c).done = true := rfl
@[simp] theorem Status.failed_err (c : ErrCode) (st : Status) : (st.failed c).err = true := rfl
@[simp] theorem Status.failed_matched (c : ErrCode) (st : Status) : (st.failed c).matched = false := rfl
@[simp] theorem Status.failed_overrun (c : ErrCode) (st : Status) : (st.failed c).overrun = st.overrun := rfl
@[simp] theorem Status.failed_irq (c : ErrCode) (st : Status) : (st.failed c).irq = true := rfl
@[simp] theorem Status.failed_errcode (c : ErrCode) (st : Status) : (st.failed c).errcode = c := rfl
@[simp] theorem Status.completed_done (m : Bool) (st : Status) : (st.completed m).done = true := rfl
@[simp] theorem Status.completed_err (m : Bool) (st : Status) : (st.completed m).err = st.err := rfl
@[simp] theorem Status.completed_matched (m : Bool) (st : Status) : (st.completed m).matched = m := rfl
@[simp] theorem Status.completed_overrun (m : Bool) (st : Status) : (st.completed m).overrun = st.overrun := rfl
@[simp] theorem Status.completed_irq (m : Bool) (st : Status) : (st.completed m).irq = true := rfl
@[simp] theorem Status.completed_errcode (m : Bool) (st : Status) : (st.completed m).errcode = st.errcode := rfl
@[simp] theorem Status.overran_done (st : Status) : (st.overran).done = st.done := rfl
@[simp] theorem Status.overran_err (st : Status) : (st.overran).err = st.err := rfl
@[simp] theorem Status.overran_matched (st : Status) : (st.overran).matched = st.matched := rfl
@[simp] theorem Status.overran_overrun (st : Status) : (st.overran).overrun = true := rfl
@[simp] theorem Status.overran_irq (st : Status) : (st.overran).irq = st.irq := rfl
@[simp] theorem Status.overran_errcode (st : Status) : (st.overran).errcode = st.errcode := rfl

/-! ### The fields of the reset state (R252) -/

@[simp] theorem reset_operands : State.reset.operands = OperandRegs.reset := rfl
@[simp] theorem reset_results : State.reset.results = ResultRegs.zero := rfl
@[simp] theorem reset_status : State.reset.status = Status.reset := rfl
@[simp] theorem reset_phase : State.reset.phase = .idle := rfl
@[simp] theorem reset_inReset : State.reset.inReset = false := rfl
@[simp] theorem reset_inputs : State.reset.inputs = [] := rfl
@[simp] theorem reset_readLog : State.reset.readLog = [] := rfl

end Sys2Proof.Machine
end

