-- ==== Sys2Proof/Laws/Words.lean ====
section
/-! SUPPORT. Bytes, words and register pairs (R84, R86): what each assembly function gives, once. -/

namespace Sys2Proof.Machine

@[simp] theorem wordByte_wordOfBytes_zero (a b c d : Byte) : wordByte (wordOfBytes a b c d) 0 = a := by
  apply BitVec.eq_of_getLsbD_eq
  intro i hi
  interval_cases i <;> simp [wordByte, wordOfBytes]

@[simp] theorem wordByte_wordOfBytes_one (a b c d : Byte) : wordByte (wordOfBytes a b c d) 1 = b := by
  apply BitVec.eq_of_getLsbD_eq
  intro i hi
  interval_cases i <;> simp [wordByte, wordOfBytes]

@[simp] theorem wordByte_wordOfBytes_two (a b c d : Byte) : wordByte (wordOfBytes a b c d) 2 = c := by
  apply BitVec.eq_of_getLsbD_eq
  intro i hi
  interval_cases i <;> simp [wordByte, wordOfBytes]

@[simp] theorem wordByte_wordOfBytes_three (a b c d : Byte) : wordByte (wordOfBytes a b c d) 3 = d := by
  apply BitVec.eq_of_getLsbD_eq
  intro i hi
  interval_cases i <;> simp [wordByte, wordOfBytes]

/-- A word is its four bytes (R84). -/
@[simp] theorem wordOfBytes_wordByte (w : Word) :
    wordOfBytes (wordByte w 0) (wordByte w 1) (wordByte w 2) (wordByte w 3) = w := by
  apply BitVec.eq_of_getLsbD_eq
  intro i hi
  interval_cases i <;> simp [wordByte, wordOfBytes]

/-- Joining a value above bit `n` with one below it is adding them. -/
theorem mul_pow_or_of_lt {x y : Nat} (n : Nat) (h : y < 2 ^ n) : x * 2 ^ n ||| y = x * 2 ^ n + y := by
  rw [← Nat.shiftLeft_eq, Nat.shiftLeft_add_eq_or_of_lt h]

/-- The value of `{b0, b1, b2, b3}` (R84). -/
theorem wordOfBytes_toNat (a b c d : Byte) :
    (wordOfBytes a b c d).toNat = a.toNat * 2 ^ 24 + b.toNat * 2 ^ 16 + c.toNat * 2 ^ 8 + d.toNat := by
  have ha := a.isLt
  have hb := b.isLt
  have hc := c.isLt
  have hd := d.isLt
  simp only [wordOfBytes, BitVec.toNat_or, BitVec.toNat_shiftLeft, BitVec.toNat_setWidth, Nat.shiftLeft_eq]
  rw [Nat.mod_eq_of_lt (show a.toNat < 2 ^ 32 by omega), Nat.mod_eq_of_lt (show b.toNat < 2 ^ 32 by omega),
    Nat.mod_eq_of_lt (show c.toNat < 2 ^ 32 by omega), Nat.mod_eq_of_lt (show d.toNat < 2 ^ 32 by omega),
    Nat.mod_eq_of_lt (show a.toNat * 2 ^ 24 < 2 ^ 32 by omega),
    Nat.mod_eq_of_lt (show b.toNat * 2 ^ 16 < 2 ^ 32 by omega),
    Nat.mod_eq_of_lt (show c.toNat * 2 ^ 8 < 2 ^ 32 by omega)]
  rw [mul_pow_or_of_lt 24 (by omega),
    show a.toNat * 2 ^ 24 + b.toNat * 2 ^ 16 = (a.toNat * 2 ^ 8 + b.toNat) * 2 ^ 16 by ring,
    mul_pow_or_of_lt 16 (by omega),
    show (a.toNat * 2 ^ 8 + b.toNat) * 2 ^ 16 + c.toNat * 2 ^ 8 =
      ((a.toNat * 2 ^ 8 + b.toNat) * 2 ^ 8 + c.toNat) * 2 ^ 8 by ring,
    mul_pow_or_of_lt 8 (by omega)]

@[simp] theorem hiWord_dwordOf (hi lo : Word) : hiWord (dwordOf hi lo) = hi := by
  apply BitVec.eq_of_getLsbD_eq
  intro i h
  simp [hiWord, dwordOf, h, show 32 + i < 64 by omega]

@[simp] theorem loWord_dwordOf (hi lo : Word) : loWord (dwordOf hi lo) = lo := by
  apply BitVec.eq_of_getLsbD_eq
  intro i h
  simp [loWord, dwordOf, h, show i < 64 by omega]

/-- A 64-bit value is its two halves (R86). -/
@[simp] theorem dwordOf_hiWord_loWord (d : Dword) : dwordOf (hiWord d) (loWord d) = d := by
  apply BitVec.eq_of_getLsbD_eq
  intro i h
  rcases Nat.lt_or_ge i 32 with h' | h'
  · simp [hiWord, loWord, dwordOf, h', h]
  · simp [hiWord, loWord, dwordOf, h, show ¬ i < 32 by omega, show i - 32 < 32 by omega,
      show 32 + (i - 32) = i by omega]

/-- The value of a register pair (R86): `HI * 2^32 + LO`. -/
theorem dwordOf_toNat (hi lo : Word) : (dwordOf hi lo).toNat = hi.toNat * 2 ^ 32 + lo.toNat := by
  have hh := hi.isLt
  have hl := lo.isLt
  simp only [dwordOf, BitVec.toNat_or, BitVec.toNat_shiftLeft, BitVec.toNat_setWidth]
  rw [Nat.mod_eq_of_lt (show hi.toNat < 2 ^ 64 by omega), Nat.mod_eq_of_lt (show lo.toNat < 2 ^ 64 by omega),
    Nat.mod_eq_of_lt (show hi.toNat <<< 32 < 2 ^ 64 by rw [Nat.shiftLeft_eq]; omega),
    ← Nat.shiftLeft_add_eq_or_of_lt hl, Nat.shiftLeft_eq]

@[simp] theorem bytesOfWord_length (w : Word) : (bytesOfWord w).length = 4 := rfl

@[simp] theorem bytesOfWords_nil : bytesOfWords [] = [] := rfl

@[simp] theorem bytesOfWords_cons (w : Word) (ws : List Word) :
    bytesOfWords (w :: ws) = bytesOfWord w ++ bytesOfWords ws := rfl

@[simp] theorem bytesOfWords_length (ws : List Word) : (bytesOfWords ws).length = 4 * ws.length := by
  induction ws with
  | nil => rfl
  | cons w ws ih => simp [ih]; omega

@[simp] theorem be64_length (c : Dword) : (be64 c).length = 8 := rfl

/-- Byte `4i + j` of a byte array held in registers is byte `j` of register `i` (R84). -/
theorem bytesOfWords_getD (ws : List Word) (i j : Nat) (hi : i < ws.length) (hj : j < 4) :
    (bytesOfWords ws).getD (4 * i + j) 0#8 = wordByte (ws.getD i 0#32) j := by
  induction ws generalizing i with
  | nil => simp at hi
  | cons w ws ih =>
    cases i with
    | zero =>
      interval_cases j <;> simp [bytesOfWord]
    | succ i =>
      have h := ih i (by simpa using hi)
      rw [bytesOfWords_cons, List.getD_append_right _ _ _ _ (by simp; omega)]
      simpa [show 4 * (i + 1) + j - 4 = 4 * i + j by omega] using h

/-- Packing a byte array held in registers gives the registers back (R84). -/
theorem packedWord_bytesOfWords (ws : List Word) (i : Nat) (hi : i < ws.length) :
    packedWord (bytesOfWords ws) i = ws.getD i 0#32 := by
  have h0 := bytesOfWords_getD ws i 0 hi (by decide)
  have h1 := bytesOfWords_getD ws i 1 hi (by decide)
  have h2 := bytesOfWords_getD ws i 2 hi (by decide)
  have h3 := bytesOfWords_getD ws i 3 hi (by decide)
  rw [packedWord, h1, h2, h3, show 4 * i = 4 * i + 0 from rfl, h0, wordOfBytes_wordByte]

/-- The four bytes of a packed register are the array's, 0 past its end (R84). -/
theorem bytesOfWord_packedWord (bs : List Byte) (i : Nat) :
    bytesOfWord (packedWord bs i) =
      [bs.getD (4 * i) 0#8, bs.getD (4 * i + 1) 0#8, bs.getD (4 * i + 2) 0#8, bs.getD (4 * i + 3) 0#8] := by
  simp [bytesOfWord, packedWord]

/-- Byte `k` of a byte array packed into `n` registers is the array's byte `k`, 0 past its end (R84). -/
theorem bytesOfWords_packed_getD (bs : List Byte) (n k : Nat) (hk : k < 4 * n) :
    (bytesOfWords ((List.range n).map (packedWord bs))).getD k 0#8 = bs.getD k 0#8 := by
  have h := bytesOfWords_getD ((List.range n).map (packedWord bs)) (k / 4) (k % 4)
    (by simp; omega) (Nat.mod_lt _ (by decide))
  rw [Nat.div_add_mod] at h
  rw [h]
  have hr : ((List.range n).map (packedWord bs)).getD (k / 4) 0#32 = packedWord bs (k / 4) := by
    rw [List.getD_eq_getElem _ _ (by simp; omega)]
    simp
  rw [hr]
  have hm : k % 4 < 4 := Nat.mod_lt _ (by decide)
  have hk4 : 4 * (k / 4) + k % 4 = k := Nat.div_add_mod k 4
  generalize k / 4 = q at *
  generalize k % 4 = r at *
  subst hk4
  interval_cases r <;> simp [packedWord]

/-- Two byte arrays of one length agree when they agree byte by byte. -/
theorem bytes_ext {as bs : List Byte} (hl : as.length = bs.length)
    (h : ∀ k, k < as.length → as.getD k 0#8 = bs.getD k 0#8) : as = bs := by
  apply List.ext_getElem hl
  intro k h1 h2
  have := h k h1
  rwa [List.getD_eq_getElem _ _ h1, List.getD_eq_getElem _ _ h2] at this

/-- Storing the word that `CTRL` reads gives its fields back (R23). -/
@[simp] theorem Ctrl.ofWord_toWord (c : Ctrl) : Ctrl.ofWord c.toWord = c := by
  obtain ⟨alg, csrc, ie, digits, window⟩ := c
  have hd : BitVec.extractLsb' 4 4 (Ctrl.toWord ⟨alg, csrc, ie, digits, window⟩) = digits := by
    apply BitVec.eq_of_getLsbD_eq
    intro i hi
    interval_cases i <;> simp [Ctrl.toWord, bitField]
  have hw : BitVec.extractLsb' 8 8 (Ctrl.toWord ⟨alg, csrc, ie, digits, window⟩) = window := by
    apply BitVec.eq_of_getLsbD_eq
    intro i hi
    interval_cases i <;> simp [Ctrl.toWord, bitField]
  have h0 : (Ctrl.toWord ⟨alg, csrc, ie, digits, window⟩).getLsbD 0 = alg.bit := by simp [Ctrl.toWord, bitField]
  have h1 : (Ctrl.toWord ⟨alg, csrc, ie, digits, window⟩).getLsbD 1 = csrc.bit := by simp [Ctrl.toWord, bitField]
  have h2 : (Ctrl.toWord ⟨alg, csrc, ie, digits, window⟩).getLsbD 2 = ie := by simp [Ctrl.toWord, bitField]
  simp only [Ctrl.ofWord, hd, hw, h0, h1, h2]
  cases alg <;> cases csrc <;> rfl

end Sys2Proof.Machine
end

