-- ==== Sys2Proof/Laws/Access.lean ====
section
/-! SUPPORT. What a host access, a turn and a step can do, said once: one equation for each case, and for the shared
operations the inversion lemmas the proofs cite. -/

namespace Sys2Proof.Machine

/-! ### The register map (R20) -/

@[simp] theorem regAt_offset (r : Reg) : regAt r.offset = some r := by
  cases r with
  | codeAscii i => fin_cases i <;> rfl
  | cand i => fin_cases i <;> rfl
  | digest i => fin_cases i <;> rfl
  | key i => fin_cases i <;> rfl
  | _ => rfl

theorem reg_offset_lt (r : Reg) : r.offset < Config.windowBytes := by
  unfold Config.windowBytes
  cases r <;> simp only [Reg.offset] <;> omega

theorem reg_offset_mod (r : Reg) : r.offset % 4 = 0 := by
  cases r <;> simp only [Reg.offset] <;> omega

@[simp] theorem readOffset_offset (s : State) (r : Reg) : readOffset s r.offset = readReg s r := by
  simp [readOffset]

@[simp] theorem windowOffset_offset (r : Reg) : (Target.offset r.offset).windowOffset = some r.offset := by
  simp [Target.windowOffset, reg_offset_lt r]

/-- No two registers share an offset (R20). -/
theorem reg_offset_eq_iff {q r : Reg} : q.offset = r.offset ↔ q = r := by
  constructor
  · intro h
    have := congrArg regAt h
    simpa using this
  · rintro rfl
    rfl

/-- An aligned offset decodes to a register exactly when it is that register's offset (R20). -/
theorem regAt_eq_some_iff {off : Nat} {r : Reg} (ha : off % 4 = 0) : regAt off = some r ↔ off = r.offset := by
  constructor
  · intro h
    obtain ⟨n, rfl⟩ : ∃ n, off = 4 * n := ⟨off / 4, by omega⟩
    rcases Nat.lt_or_ge n 0x30 with hn | hn
    · interval_cases n <;> simp [regAt] at h <;> subst h <;> rfl
    · unfold regAt at h
      rw [Nat.mul_div_cancel_left n (by decide)] at h
      split at h <;> first | omega | (split_ifs at h <;> omega)
  · rintro rfl
    simp

/-- Two states that agree on every register but one agree on every other aligned offset. -/
theorem readOffset_eq_of_readReg_eq {s t : State} {r : Reg} (h : ∀ q, q ≠ r → readReg t q = readReg s q) (off : Nat)
    (hne : off ≠ r.offset) (ha : off % 4 = 0) : readOffset t off = readOffset s off := by
  unfold readOffset
  cases hr : regAt off with
  | none => rfl
  | some q =>
    have := (regAt_eq_some_iff ha).1 hr
    subst this
    exact h q (by rintro rfl; exact hne rfl)

/-- Two states that differ in `STATUS` alone as the host reads them. -/
theorem readOffset_eq_of_not_status {s t : State} (h : ∀ q, q ≠ .status → readReg t q = readReg s q) (off : Nat)
    (hne : off ≠ 0x10) (ha : off % 4 = 0) : readOffset t off = readOffset s off :=
  readOffset_eq_of_readReg_eq (r := .status) h off hne ha

/-- Every bit of `STATUS` (R31). -/
theorem statusWord_getLsbD (s : State) (i : Nat) (hi : i < 32) :
    (statusWord s).getLsbD i =
      if i = 0 then s.phase.isBusy
      else if i = 1 then s.status.done
      else if i = 2 then s.status.err
      else if i = 3 then s.status.matched
      else if i = 4 then s.status.overrun
      else if i = 5 then s.status.irq
      else if 8 ≤ i ∧ i < 12 then s.status.errcode.toBits.getLsbD (i - 8)
      else false := by
  interval_cases i <;> simp [statusWord, bitField]

/-- `STATUS` after acceptance (R160). -/
theorem readReg_begin_status (i : Instr) (s : State) :
    readReg (begin i s) .status = (readReg s .status &&& 0x38#32) ||| 1#32 := by
  apply BitVec.eq_of_getLsbD_eq
  intro k hk
  simp only [readReg]
  rw [BitVec.getLsbD_or, BitVec.getLsbD_and, statusWord_getLsbD _ k hk, statusWord_getLsbD _ k hk]
  interval_cases k <;> simp [Phase.isBusy, ErrCode.toBits]

/-- `STATUS` after a failure at acceptance (R221). -/
theorem readReg_raiseError_status (c : ErrCode) (s : State) (hp : s.phase = .idle) :
    readReg (raiseError c s) .status =
      (readReg s .status &&& 0x10#32) ||| 0x26#32 ||| BitVec.ofNat 32 (c.toBits.toNat * 256) := by
  apply BitVec.eq_of_getLsbD_eq
  intro k hk
  simp only [readReg]
  rw [BitVec.getLsbD_or, BitVec.getLsbD_or, BitVec.getLsbD_and, statusWord_getLsbD _ k hk, statusWord_getLsbD _ k hk]
  cases c <;> interval_cases k <;> simp [Phase.isBusy, hp, ErrCode.toBits]

/-! ### Commands (R160, R162) -/

@[simp] theorem exec_of_idle (i : Instr) (s : State) (h : s.phase = .idle) : exec i s = .next (accept i s) := by
  cases i <;> simp [exec, execGen, execVerify, execZeroize, h]

theorem exec_gen_of_busy {s : State} {op : Instr} {snap : OperandRegs} (h : s.phase = .busy op snap) :
    exec .gen s = .next (complete s.operands (genResults snap) false s) := by
  simp [exec, execGen, h]

theorem exec_verify_of_busy {s : State} {op : Instr} {snap : OperandRegs} (h : s.phase = .busy op snap) :
    exec .verify s = .next (complete s.operands (verifyResults snap s.results) snap.verifies s) := by
  simp [exec, execVerify, h]

theorem exec_zeroize_of_busy {s : State} {op : Instr} {snap : OperandRegs} (h : s.phase = .busy op snap) :
    exec .zeroize s = .next (complete (zeroizeOperands s.operands) ResultRegs.zero false s) := by
  simp [exec, execZeroize, h]

/-- The registers and the `MATCH` a completion writes, by command (R170, R174, R180). -/
def completionOf (i : Instr) (snap : OperandRegs) (s : State) : State :=
  match i with
  | .gen => complete s.operands (genResults snap) false s
  | .verify => complete s.operands (verifyResults snap s.results) snap.verifies s
  | .zeroize => complete (zeroizeOperands s.operands) ResultRegs.zero false s

theorem exec_of_busy {s : State} {op : Instr} {snap : OperandRegs} (i : Instr) (h : s.phase = .busy op snap) :
    exec i s = .next (completionOf i snap s) := by
  cases i with
  | gen => exact exec_gen_of_busy h
  | verify => exact exec_verify_of_busy h
  | zeroize => exact exec_zeroize_of_busy h

@[simp] theorem completionOf_phase (i : Instr) (snap : OperandRegs) (s : State) :
    (completionOf i snap s).phase = .idle := by cases i <;> rfl

@[simp] theorem completionOf_inReset (i : Instr) (snap : OperandRegs) (s : State) :
    (completionOf i snap s).inReset = s.inReset := by cases i <;> rfl

@[simp] theorem completionOf_inputs (i : Instr) (snap : OperandRegs) (s : State) :
    (completionOf i snap s).inputs = s.inputs := by cases i <;> rfl

@[simp] theorem completionOf_readLog (i : Instr) (snap : OperandRegs) (s : State) :
    (completionOf i snap s).readLog = s.readLog := by cases i <;> rfl

theorem completionOf_status (i : Instr) (snap : OperandRegs) (s : State) :
    ∃ m, (completionOf i snap s).status = s.status.completed m := by cases i <;> exact ⟨_, rfl⟩

/-- Everything a command can do (R160, R162): it is accepted or fails while idle, and completes while busy. -/
theorem exec_cases {i : Instr} {s t : State} (h : exec i s = .next t) :
    (s.phase = .idle ∧ t = accept i s) ∨ ∃ op snap, s.phase = .busy op snap ∧ t = completionOf i snap s := by
  cases hp : s.phase with
  | idle =>
    rw [exec_of_idle i s hp] at h
    exact .inl ⟨rfl, (Host.Outcome.next.inj h).symm⟩
  | busy op snap =>
    rw [exec_of_busy i hp] at h
    exact .inr ⟨op, snap, rfl, (Host.Outcome.next.inj h).symm⟩

/-- The checks pass exactly on the operands R222 to R224 admit. -/
theorem OperandRegs.check_eq_none_iff (o : OperandRegs) : o.check = none ↔ o.Legal := by
  unfold OperandRegs.check OperandRegs.Legal
  split_ifs with h1 h2 h3
  · simp_all
  · simp_all
  · simp_all
  · simp_all

/-- Both ways a command word taken while idle can end (R160): the failure of R221, or acceptance. -/
theorem accept_cases (i : Instr) (s : State) :
    (∃ code, commandCheck i s.operands = some code ∧ accept i s = raiseError code s) ∨
      (commandCheck i s.operands = none ∧ accept i s = begin i s) := by
  cases h : commandCheck i s.operands with
  | none => exact .inr ⟨rfl, by simp [accept, h]⟩
  | some code => exact .inl ⟨code, rfl, by simp [accept, h]⟩

@[simp] theorem accept_operands (i : Instr) (s : State) : (accept i s).operands = s.operands := by
  rcases accept_cases i s with ⟨c, -, h⟩ | ⟨-, h⟩ <;> simp [h]

@[simp] theorem accept_results (i : Instr) (s : State) : (accept i s).results = s.results := by
  rcases accept_cases i s with ⟨c, -, h⟩ | ⟨-, h⟩ <;> simp [h]

@[simp] theorem accept_inReset (i : Instr) (s : State) : (accept i s).inReset = s.inReset := by
  rcases accept_cases i s with ⟨c, -, h⟩ | ⟨-, h⟩ <;> simp [h]

@[simp] theorem accept_inputs (i : Instr) (s : State) : (accept i s).inputs = s.inputs := by
  rcases accept_cases i s with ⟨c, -, h⟩ | ⟨-, h⟩ <;> simp [h]

@[simp] theorem accept_readLog (i : Instr) (s : State) : (accept i s).readLog = s.readLog := by
  rcases accept_cases i s with ⟨c, -, h⟩ | ⟨-, h⟩ <;> simp [h]

/-! ### Host accesses (R61 to R66) -/

@[simp] theorem hostAccess_read32 (off : Nat) (s : State) (h : off < Config.windowBytes) (ha : off % 4 = 0) :
    hostAccess (read32 off) s = .next (hostRead off s) := by
  simp [hostAccess, read32, Target.windowOffset, h, ha]

@[simp] theorem hostAccess_write32 (off : Nat) (v : Word) (s : State) (h : off < Config.windowBytes)
    (ha : off % 4 = 0) : hostAccess (write32 off v) s = hostWrite off v s := by
  simp [hostAccess, write32, Target.windowOffset, h, ha]

theorem hostWrite_status (v : Word) (s : State) : hostWrite Reg.status.offset v s = .next (acknowledge s v) := by
  simp [hostWrite]

theorem hostWrite_of_busy {off : Nat} {s : State} {op : Instr} {snap : OperandRegs} (v : Word)
    (hp : s.phase = .busy op snap) (hr : regAt off ≠ some .status) : hostWrite off v s = .next (overrun s) := by
  unfold hostWrite
  rw [hp]
  split <;> simp_all

theorem hostWrite_cmd_of_idle {s : State} (v : Word) (hp : s.phase = .idle) :
    hostWrite Reg.cmd.offset v s = issueCommand v s := by
  simp [hostWrite, hp]

theorem hostWrite_reg_of_idle {s : State} (r : Reg) (v : Word) (hp : s.phase = .idle) (hs : r ≠ .status)
    (hc : r ≠ .cmd) : hostWrite r.offset v s = .next (writeReg s r v) := by
  unfold hostWrite
  rw [hp, regAt_offset]
  split <;> simp_all

theorem hostWrite_reserved_of_idle {off : Nat} {s : State} (v : Word) (hp : s.phase = .idle)
    (hr : regAt off = none) : hostWrite off v s = .next s := by
  simp [hostWrite, hp, hr]

theorem issueCommand_ok {v : Word} {i : Instr} (s : State) (h : decode v = .ok i) :
    issueCommand v s = exec i s := by simp [issueCommand, h]

theorem issueCommand_error {v : Word} {e : DecodeError} (s : State) (h : decode v = .error e) :
    issueCommand v s = .next (raiseError .illegalCmd s) := by simp [issueCommand, h]

/-- A write to `CMD` while idle (R160). -/
theorem hostAccess_cmd_of_idle (v : Word) (s : State) (hp : s.phase = .idle) :
    hostAccess (write32 Reg.cmd.offset v) s = issueCommand v s := by
  rw [hostAccess_write32 _ v s (reg_offset_lt _) (reg_offset_mod _), hostWrite_cmd_of_idle v hp]

/-- Everything a performed write can do (R65, R66, R82, R160). -/
theorem hostWrite_cases {off : Nat} {v : Word} {s t : State} (h : hostWrite off v s = .next t) :
    (regAt off = some .status ∧ t = acknowledge s v) ∨
    (regAt off ≠ some .status ∧ (∃ op snap, s.phase = .busy op snap) ∧ t = overrun s) ∨
    (regAt off = some .cmd ∧ s.phase = .idle ∧
      ((∃ i, decode v = .ok i ∧ t = accept i s) ∨ (∃ e, decode v = .error e) ∧ t = raiseError .illegalCmd s)) ∨
    (∃ r, regAt off = some r ∧ r ≠ .status ∧ r ≠ .cmd ∧ s.phase = .idle ∧ t = writeReg s r v) ∨
    (regAt off = none ∧ s.phase = .idle ∧ t = s) := by
  unfold hostWrite at h
  split at h
  · rename_i hr
    exact .inl ⟨hr, (Host.Outcome.next.inj h).symm⟩
  · rename_i op snap hp hn
    exact .inr (.inl ⟨hn, ⟨op, snap, hp⟩, (Host.Outcome.next.inj h).symm⟩)
  · rename_i hr hp
    refine .inr (.inr (.inl ⟨hr, hp, ?_⟩))
    cases hd : decode v with
    | ok i =>
      rw [issueCommand_ok s hd, exec_of_idle i s hp] at h
      exact .inl ⟨i, rfl, (Host.Outcome.next.inj h).symm⟩
    | error e =>
      rw [issueCommand_error s hd] at h
      exact .inr ⟨⟨e, rfl⟩, (Host.Outcome.next.inj h).symm⟩
  · rename_i r hs hc hr hp
    exact .inr (.inr (.inr (.inl ⟨r, hr, by rintro rfl; exact hs rfl, by rintro rfl; exact hc rfl, hp, (Host.Outcome.next.inj h).symm⟩)))
  · rename_i hr hp
    exact .inr (.inr (.inr (.inr ⟨hr, hp, (Host.Outcome.next.inj h).symm⟩)))

/-- A write never stops the machine. -/
theorem hostWrite_next (off : Nat) (v : Word) (s : State) : ∃ t, hostWrite off v s = .next t := by
  cases hp : s.phase with
  | busy op snap =>
    by_cases hr : regAt off = some .status
    · exact ⟨_, by simp [hostWrite, hr]; rfl⟩
    · exact ⟨_, hostWrite_of_busy v hp hr⟩
  | idle =>
    cases hr : regAt off with
    | none => exact ⟨_, hostWrite_reserved_of_idle v hp hr⟩
    | some r =>
      unfold hostWrite
      rw [hp, hr]
      split
      · exact ⟨_, rfl⟩
      · simp_all
      · cases hd : decode v with
        | ok i => exact ⟨_, by rw [issueCommand_ok s hd, exec_of_idle i s hp]⟩
        | error e => exact ⟨_, issueCommand_error s hd⟩
      · exact ⟨_, rfl⟩
      · simp_all

/-- Everything a performed access can do: it was well formed, and it is a read or a write at its offset (R61). -/
theorem hostAccess_cases {a : Access} {s t : State} (h : hostAccess a s = .next t) :
    ∃ off, a.width = 4 ∧ a.target.windowOffset = some off ∧ off % 4 = 0 ∧
      ((a.kind = .read ∧ t = hostRead off s) ∨ ∃ v, a.kind = .write v ∧ hostWrite off v s = .next t) := by
  unfold hostAccess at h
  split at h
  · simp at h
  · rename_i hw
    split at h
    · simp at h
    · rename_i off ho
      split at h
      · simp at h
      · rename_i ha
        refine ⟨off, by simpa using hw, ho, by simpa using ha, ?_⟩
        split at h
        · rename_i hk
          exact .inl ⟨hk, (Host.Outcome.next.inj h).symm⟩
        · rename_i v hk
          exact .inr ⟨v, hk, h⟩

/-- A well-formed access is performed (R61). -/
theorem hostAccess_next {a : Access} {off : Nat} (s : State) (hw : a.width = 4)
    (ho : a.target.windowOffset = some off) (ha : off % 4 = 0) : ∃ t, hostAccess a s = .next t := by
  simp only [hostAccess, hw, ho, ha]
  cases a.kind with
  | read => exact ⟨_, rfl⟩
  | write v => exact hostWrite_next off v s

/-- A well-formed access has its offset in the window (R60, R61). -/
theorem windowOffset_of_wellFormed {a : Access} (h : a.wellFormed = true) :
    a.width = 4 ∧ ∃ off, a.target.windowOffset = some off ∧ off % 4 = 0 := by
  simp only [Access.wellFormed, Bool.and_eq_true, beq_iff_eq] at h
  obtain ⟨hw, ht⟩ := h
  refine ⟨hw, ?_⟩
  cases hk : a.target with
  | offset off =>
    simp [hk, Target.wellFormed, offsetWellFormed] at ht
    exact ⟨off, by simp [Target.windowOffset, ht.1], ht.2⟩
  | address addr =>
    simp [hk, Target.wellFormed, offsetWellFormed] at ht
    exact ⟨addr - Config.base, by simp [Target.windowOffset]; omega, ht.2.2⟩

theorem hostAccess_next_of_wellFormed (s : State) {a : Access} (h : a.wellFormed = true) :
    ∃ t, hostAccess a s = .next t := by
  obtain ⟨hw, off, ho, ha⟩ := windowOffset_of_wellFormed h
  exact hostAccess_next s hw ho ha

/-! ### Steps (R10, R67) -/

theorem step_of_nil {s : State} (h : s.inputs = []) : step s = quietTurn s := by simp [step, h]

theorem step_of_cons {s : State} {i : Input} {rest : List Input} (h : s.inputs = i :: rest) :
    step s = agentTurn i { s with inputs := rest } := by simp [step, h]

/-- The sequencer's turn while busy: the completion of the pending command (R162). -/
theorem sequencerTurn_of_busy {s : State} {op : Instr} {snap : OperandRegs} (h : s.phase = .busy op snap) :
    sequencerTurn s = .next (completionOf op snap s) := by
  simp [sequencerTurn, h, exec_of_busy op h]

theorem sequencerTurn_of_idle {s : State} (h : s.phase = .idle) : sequencerTurn s = .next s := by
  simp [sequencerTurn, h]

/-- The sequencer never stops the machine. -/
theorem sequencerTurn_cases {s t : State} (h : sequencerTurn s = .next t) :
    (s.phase = .idle ∧ t = s) ∨ ∃ op snap, s.phase = .busy op snap ∧ t = completionOf op snap s := by
  cases hp : s.phase with
  | idle =>
    rw [sequencerTurn_of_idle hp] at h
    exact .inl ⟨rfl, (Host.Outcome.next.inj h).symm⟩
  | busy op snap =>
    rw [sequencerTurn_of_busy hp] at h
    exact .inr ⟨op, snap, rfl, (Host.Outcome.next.inj h).symm⟩

theorem sequencerTurn_next (s : State) : ∃ t, sequencerTurn s = .next t := by
  cases hp : s.phase with
  | idle => exact ⟨_, sequencerTurn_of_idle hp⟩
  | busy op snap => exact ⟨_, sequencerTurn_of_busy hp⟩

end Sys2Proof.Machine
end

