-- ==== Sys2Proof/Laws/Otp.lean ====
section
/-! SUPPORT. What the pure functions of the datapath give (R101 to R120, R140 to R147, R172): lengths, bounds and
members, once. -/

namespace Sys2Proof.Machine

/-! ### Hashes and HMAC -/

@[simp] theorem sha1_length (m : List Byte) : (sha1 m).length = 20 := by
  simp [sha1, Sha1State.bytes]

@[simp] theorem sha256_length (m : List Byte) : (sha256 m).length = 32 := by
  simp [sha256, Sha256State.bytes]

/-- A digest has `L` bytes (R110). -/
@[simp] theorem hash_length (alg : HashAlg) (m : List Byte) : (hash alg m).length = digestLength alg := by
  cases alg <;> simp [hash, digestLength]

@[simp] theorem hmac_length (alg : HashAlg) (k m : List Byte) : (hmac alg k m).length = digestLength alg := by
  simp [hmac]

@[simp] theorem hmacAt_length (o : OperandRegs) (c : Dword) : (o.hmacAt c).length = digestLength o.ctrl.alg := by
  simp [OperandRegs.hmacAt]

theorem digestLength_cases (alg : HashAlg) : digestLength alg = 20 ∨ digestLength alg = 32 := by
  cases alg <;> simp [digestLength]

@[simp] theorem paddedKey_length (k : List Byte) (h : k.length ≤ 64) : (paddedKey k).length = 64 := by
  simp [paddedKey, Config.blockBytes]
  omega

/-- The number of zeros of R102 completes the block. -/
theorem padZeros_spec (n : Nat) : (n + 1 + padZeros n) % 64 = 56 := by
  unfold padZeros
  omega

theorem pad_length (m : List Byte) : (pad m).length = m.length + 1 + padZeros m.length + 8 := by
  simp [pad]
  omega

/-! ### The key of a command (R38, R100) -/

@[simp] theorem keyBytes_length (o : OperandRegs) : o.keyBytes.length = 64 := by
  simp [OperandRegs.keyBytes]

@[simp] theorem candBytes_length (o : OperandRegs) : o.candBytes.length = 12 := by
  simp [OperandRegs.candBytes]

theorem secret_length (o : OperandRegs) (h : o.keylen.toNat ≤ 64) : o.secret.length = o.keylen.toNat := by
  simp [OperandRegs.secret, h]

/-! ### Truncation and digits -/

/-- The offset is a nibble (R142). -/
theorem truncOffset_lt (digest : List Byte) : truncOffset digest < 16 := by
  unfold truncOffset
  rw [BitVec.toNat_and]
  exact Nat.lt_of_le_of_lt Nat.and_le_right (by decide)

/-- The low nibble of a byte as a remainder (R142). -/
theorem and_nibble (b : Byte) : (b &&& 0x0F#8).toNat = b.toNat % 16 := by
  rw [BitVec.toNat_and]
  exact Nat.and_two_pow_sub_one_eq_mod b.toNat 4

/-- A byte without its top bit as a remainder (R143). -/
theorem and_mask7 (b : Byte) : (b &&& 0x7F#8).toNat = b.toNat % 128 := by
  rw [BitVec.toNat_and]
  exact Nat.and_two_pow_sub_one_eq_mod b.toNat 7

/-- The value of the four bytes that truncation selects (R143). -/
theorem truncated_toNat (digest : List Byte) :
    (truncated digest).toNat =
      (digest.getD (truncOffset digest) 0#8).toNat % 128 * 2 ^ 24 +
        (digest.getD (truncOffset digest + 1) 0#8).toNat * 2 ^ 16 +
        (digest.getD (truncOffset digest + 2) 0#8).toNat * 2 ^ 8 +
        (digest.getD (truncOffset digest + 3) 0#8).toNat := by
  rw [truncated, wordOfBytes_toNat, and_mask7]

theorem truncated_lt (digest : List Byte) : (truncated digest).toNat < 2 ^ 31 := by
  rw [truncated_toNat]
  have h1 := (digest.getD (truncOffset digest + 1) 0#8).isLt
  have h2 := (digest.getD (truncOffset digest + 2) 0#8).isLt
  have h3 := (digest.getD (truncOffset digest + 3) 0#8).isLt
  omega

theorem codeOf_lt (d : Nat) (binary : Word) : codeOf d binary < 10 ^ d :=
  Nat.mod_lt _ (Nat.pow_pos (by decide))

/-- A code of at most 9 digits fits the register `CODE` (R227). -/
theorem codeOf_lt_word {d : Nat} (h : d ≤ 9) (binary : Word) : codeOf d binary < 2 ^ 32 :=
  Nat.lt_of_lt_of_le (codeOf_lt d binary)
    (Nat.le_trans (Nat.pow_le_pow_right (by decide) h) (by decide))

@[simp] theorem codeString_length (d code : Nat) : (codeString d code).length = d := by
  simp [codeString]

/-- Character `k` of a code string (R145). -/
theorem codeString_getD (d code k : Nat) (h : k < d) :
    (codeString d code).getD k 0#8 = BitVec.ofNat 8 (0x30 + code / 10 ^ (d - 1 - k) % 10) := by
  rw [List.getD_eq_getElem _ _ (by simpa using h)]
  simp [codeString]

theorem codeBuffer_length (d code : Nat) (h : d ≤ 12) : (codeBuffer d code).length = 12 := by
  simp [codeBuffer, Config.codeBufferBytes]
  omega

/-- Byte `k` of the code buffer (R43): a character of the code string, then `0x00`. -/
theorem codeBuffer_getD (d code k : Nat) :
    (codeBuffer d code).getD k 0#8 = if k < d then (codeString d code).getD k 0#8 else 0#8 := by
  unfold codeBuffer
  split_ifs with h
  · rw [List.getD_append _ _ _ _ (by simpa using h)]
  · rw [List.getD_append_right _ _ _ _ (by simp; omega)]
    rcases Nat.lt_or_ge (k - (codeString d code).length) (Config.codeBufferBytes - d) with h' | h'
    · rw [List.getD_eq_getElem _ _ (by simpa using h')]
      simp
    · rw [List.getD_eq_default _ _ (by simpa using h')]

/-- The three registers that hold a 12-byte buffer give it back (R84). -/
theorem bytesOfWords_three (bs : List Byte) (h : bs.length = 12) :
    bytesOfWords [packedWord bs 0, packedWord bs 1, packedWord bs 2] = bs := by
  apply bytes_ext (by simp [h])
  intro k hk
  exact bytesOfWords_packed_getD bs 3 k (by simpa using hk)

/-! ### The window (R172) -/

/-- The offsets of the window are the integers from `-W` to `W` (R172). -/
theorem mem_windowOffsets (w : Nat) (i : Int) : i ∈ windowOffsets w ↔ -(w : Int) ≤ i ∧ i ≤ w := by
  simp only [windowOffsets, List.mem_map, List.mem_range]
  constructor
  · rintro ⟨k, hk, rfl⟩
    omega
  · rintro ⟨h1, h2⟩
    exact ⟨(i + w).toNat, by omega, by omega⟩

/-- `c_i = (t + i) mod 2^64` (R172), as a proposition on integers. -/
theorem windowCounter_iff (t : Dword) (i : Int) (c : Dword) :
    c = windowCounter t i ↔ (c.toNat : Int) = ((t.toNat : Int) + i) % 2 ^ 64 := by
  have h : (0 : Int) ≤ ((t.toNat : Int) + i) % 2 ^ 64 := Int.emod_nonneg _ (by decide)
  rw [windowCounter, ← BitVec.toNat_inj, BitVec.toNat_ofInt]
  constructor
  · intro hc
    rw [hc]
    simp
    omega
  · intro hc
    simp
    omega

/-- The base counter (R140), with R141 written out. -/
theorem baseCounter_eq (o : OperandRegs) :
    o.baseCounter = match o.ctrl.csrc with
      | .counter => dwordOf o.counterHi o.counterLo
      | .time => BitVec.ofNat 64 ((dwordOf o.timeHi o.timeLo).toNat / o.period.toNat) := by
  unfold OperandRegs.baseCounter
  cases o.ctrl.csrc <;> rfl

/-- `EQ(S)` (R173), as a proposition. -/
theorem candidateEquals_iff (o : OperandRegs) (s : List Byte) :
    o.candidateEquals s = true ↔
      o.candlen.toNat = o.digits ∧ ∀ k, k < o.digits → o.candBytes.getD k 0#8 = s.getD k 0#8 := by
  simp [OperandRegs.candidateEquals, List.all_eq_true]

/-- VERIFY's boolean (R174), as a proposition. -/
theorem verifies_iff (o : OperandRegs) :
    o.verifies = true ↔
      ∃ i : Int, -(o.window : Int) ≤ i ∧ i ≤ o.window ∧
        o.candidateEquals (o.codeStringAt (windowCounter o.baseCounter i)) = true := by
  simp only [OperandRegs.verifies, List.any_eq_true, mem_windowOffsets]
  constructor
  · rintro ⟨i, ⟨h1, h2⟩, h3⟩
    exact ⟨i, h1, h2, h3⟩
  · rintro ⟨i, h1, h2, h3⟩
    exact ⟨i, ⟨h1, h2⟩, h3⟩

/-! ### GEN's registers (R170) -/

@[simp] theorem genResults_lastctr (o : OperandRegs) : (genResults o).lastctr = o.baseCounter := by
  simp [genResults, ResultRegs.lastctr]

@[simp] theorem genResults_trunc (o : OperandRegs) :
    (genResults o).trunc = truncated (o.hmacAt o.baseCounter) := rfl

theorem genResults_code (o : OperandRegs) (h : o.digits ≤ 9) :
    (genResults o).code.toNat = codeOf o.digits (genResults o).trunc := by
  simp only [genResults, OperandRegs.codeAt, BitVec.toNat_ofNat]
  exact Nat.mod_eq_of_lt (codeOf_lt_word h _)

theorem genResults_codeBytes (o : OperandRegs) (h : o.digits ≤ 9) :
    (genResults o).codeBytes = codeBuffer o.digits (o.codeAt o.baseCounter) := by
  simp only [genResults, ResultRegs.codeBytes]
  exact bytesOfWords_three _ (codeBuffer_length _ _ (by omega))

end Sys2Proof.Machine
end

