-- ==== Sys2Proof/Laws/Steps.lean ====
section
/-! SUPPORT. What a step can do, said once (R10, R67), with what an access and a turn leave of the state. -/

namespace Sys2Proof.Machine

/-- The state once the next turn is taken from the list. -/
abbrev afterTurn (s : State) : State := { s with inputs := s.inputs.tail }

/-- Everything a step can do: the reset input changes, the turn passes while reset is asserted, the host's access or one
turn of its `POLL` loop, or the sequencer's turn (listed, or with no turn listed). -/
theorem step_cases {s t : State} (h : step s = .next t) :
    (∃ rest, s.inputs = .resetAssert :: rest ∧ t = resetAssert (afterTurn s)) ∨
    (∃ rest, s.inputs = .resetRelease :: rest ∧ t = resetRelease (afterTurn s)) ∨
    (s.inReset = true ∧ t = afterTurn s) ∨
    (s.inReset = false ∧ ∃ a rest, s.inputs = .access a :: rest ∧ hostAccess a (afterTurn s) = .next t) ∨
    (s.inReset = false ∧ ∃ n rest, s.inputs = .poll n :: rest ∧ t = hostPoll n (afterTurn s)) ∨
    (s.inReset = false ∧ (s.inputs = [] ∨ ∃ rest, s.inputs = .sequencer :: rest) ∧
      sequencerTurn (afterTurn s) = .next t) := by
  have hnil : s.inputs = [] → afterTurn s = s := by
    intro hi
    cases s
    simp_all [afterTurn]
  cases hi : s.inputs with
  | nil =>
    rw [step_of_nil hi, quietTurn] at h
    split_ifs at h with hr
    · exact .inr (.inr (.inl ⟨hr, by rw [hnil hi]; exact (Host.Outcome.next.inj h).symm⟩))
    · exact .inr (.inr (.inr (.inr (.inr ⟨by simpa using hr, .inl rfl, by rw [hnil hi]; exact h⟩))))
  | cons i rest =>
    have ht : afterTurn s = { s with inputs := rest } := by simp [afterTurn, hi]
    rw [step_of_cons hi, ← ht] at h
    cases i with
    | resetAssert => exact .inl ⟨rest, rfl, (Host.Outcome.next.inj h).symm⟩
    | resetRelease => exact .inr (.inl ⟨rest, rfl, (Host.Outcome.next.inj h).symm⟩)
    | access a =>
      simp only [agentTurn] at h
      split_ifs at h with hr
      · exact .inr (.inr (.inl ⟨hr, (Host.Outcome.next.inj h).symm⟩))
      · exact .inr (.inr (.inr (.inl ⟨by simpa using hr, a, rest, rfl, h⟩)))
    | poll n =>
      simp only [agentTurn] at h
      split_ifs at h with hr
      · exact .inr (.inr (.inl ⟨hr, (Host.Outcome.next.inj h).symm⟩))
      · exact .inr (.inr (.inr (.inr (.inl ⟨by simpa using hr, n, rest, rfl, (Host.Outcome.next.inj h).symm⟩))))
    | sequencer =>
      simp only [agentTurn] at h
      split_ifs at h with hr
      · exact .inr (.inr (.inl ⟨hr, (Host.Outcome.next.inj h).symm⟩))
      · exact .inr (.inr (.inr (.inr (.inr ⟨by simpa using hr, .inr ⟨rest, rfl⟩, h⟩))))

/-- What one turn of the `POLL` loop does (R88). -/
theorem hostPoll_cases (n : Nat) (s : State) :
    (s.phase = .idle ∧ hostPoll n s = hostRead Reg.status.offset s) ∨
    ∃ op snap, s.phase = .busy op snap ∧
      ((n = 0 ∧ hostPoll n s = { s with inputs := .sequencer :: .poll 0 :: s.inputs }) ∨
        ∃ m, n = m + 1 ∧ hostPoll n s = hostRead Reg.status.offset { s with inputs := .poll m :: s.inputs }) := by
  cases hp : s.phase with
  | idle => exact .inl ⟨rfl, by simp [hostPoll, hp]⟩
  | busy op snap =>
    refine .inr ⟨op, snap, rfl, ?_⟩
    cases n with
    | zero => exact .inl ⟨rfl, by simp [hostPoll, hp]⟩
    | succ m => exact .inr ⟨m, rfl, by simp [hostPoll, hp]⟩

@[simp] theorem hostPoll_operands (n : Nat) (s : State) : (hostPoll n s).operands = s.operands := by
  rcases hostPoll_cases n s with ⟨-, h⟩ | ⟨_, _, -, ⟨-, h⟩ | ⟨_, -, h⟩⟩ <;> simp [h]

@[simp] theorem hostPoll_results (n : Nat) (s : State) : (hostPoll n s).results = s.results := by
  rcases hostPoll_cases n s with ⟨-, h⟩ | ⟨_, _, -, ⟨-, h⟩ | ⟨_, -, h⟩⟩ <;> simp [h]

@[simp] theorem hostPoll_status (n : Nat) (s : State) : (hostPoll n s).status = s.status := by
  rcases hostPoll_cases n s with ⟨-, h⟩ | ⟨_, _, -, ⟨-, h⟩ | ⟨_, -, h⟩⟩ <;> simp [h]

@[simp] theorem hostPoll_phase (n : Nat) (s : State) : (hostPoll n s).phase = s.phase := by
  rcases hostPoll_cases n s with ⟨-, h⟩ | ⟨_, _, -, ⟨-, h⟩ | ⟨_, -, h⟩⟩ <;> simp [h]

@[simp] theorem hostPoll_inReset (n : Nat) (s : State) : (hostPoll n s).inReset = s.inReset := by
  rcases hostPoll_cases n s with ⟨-, h⟩ | ⟨_, _, -, ⟨-, h⟩ | ⟨_, -, h⟩⟩ <;> simp [h]

/-! ### Runs -/

theorem runSteps_succ {s t : State} (n : Nat) (h : step s = .next t) : runSteps (n + 1) s = runSteps n t := by
  simp [runSteps, h]

/-- A run of `m + n` steps is a run of `n` steps after one of `m`. -/
theorem runSteps_add (m n : Nat) {s t : State} (h : runSteps m s = .next t) : runSteps (m + n) s = runSteps n t := by
  induction m generalizing s with
  | zero =>
    obtain rfl := Host.Outcome.next.inj h
    simp
  | succ m ih =>
    rw [show m + 1 + n = (m + n) + 1 by omega]
    simp only [runSteps] at h ⊢
    cases hs : step s with
    | next u => exact ih (by simpa [hs] using h)
    | fault f => simp [hs] at h
    | refused r => simp [hs] at h

/-- An idle core with no turn listed stays as it is. -/
theorem runSteps_of_quiet (n : Nat) {s : State} (hi : s.inputs = []) (hp : s.phase = .idle) :
    runSteps n s = .next s := by
  induction n with
  | zero => rfl
  | succ n ih =>
    rw [runSteps_succ n (t := s) (by rw [step_of_nil hi, quietTurn, sequencerTurn_of_idle hp]; split_ifs <;> rfl)]
    exact ih

/-! ### Accesses -/

/-- No access lists a turn or asserts reset. -/
theorem hostAccess_schedule {a : Access} {s t : State} (h : hostAccess a s = .next t) :
    t.inputs = s.inputs ∧ t.inReset = s.inReset := by
  obtain ⟨off, -, -, -, ⟨-, rfl⟩ | ⟨v, -, hw⟩⟩ := hostAccess_cases h
  · exact ⟨rfl, rfl⟩
  · rcases hostWrite_cases hw with ⟨-, rfl⟩ | ⟨-, -, rfl⟩ | ⟨-, -, ⟨i, -, rfl⟩ | ⟨-, rfl⟩⟩ | ⟨r, -, -, -, -, rfl⟩ |
      ⟨-, -, rfl⟩ <;> simp

/-- Everything an access can do to the registers, by the phase it finds (R65, R66, R82, R160). -/
theorem hostAccess_effect {a : Access} {s t : State} (h : hostAccess a s = .next t) :
    (∃ v, a.kind = .read ∧ t = logRead s v) ∨
    (∃ v, a.kind = .write v ∧ a.target.windowOffset = some 0x10 ∧ t = acknowledge s v) ∨
    (∃ v off op snap, a.kind = .write v ∧ a.target.windowOffset = some off ∧ off ≠ 0x10 ∧ s.phase = .busy op snap ∧
      t = overrun s) ∨
    (s.phase = .idle ∧
      ((∃ v i, a.kind = .write v ∧ a.target.windowOffset = some 0x0C ∧ decode v = .ok i ∧ t = accept i s) ∨
        (∃ v e, a.kind = .write v ∧ a.target.windowOffset = some 0x0C ∧ decode v = .error e ∧
          t = raiseError .illegalCmd s) ∨
        (∃ v r, a.kind = .write v ∧ a.target.windowOffset = some (Reg.offset r) ∧ r ≠ .status ∧ t = writeReg s r v) ∨
        t = s)) := by
  obtain ⟨off, -, ho, ha, ⟨hk, rfl⟩ | ⟨v, hk, hw⟩⟩ := hostAccess_cases h
  · exact .inl ⟨_, hk, rfl⟩
  · rcases hostWrite_cases hw with ⟨hr, rfl⟩ | ⟨hr, ⟨op, snap, hp⟩, rfl⟩ | ⟨hr, hp, ⟨i, hd, rfl⟩ | ⟨⟨e, hd⟩, rfl⟩⟩ |
      ⟨r, hr, hs, hc, hp, rfl⟩ | ⟨hr, hp, rfl⟩
    · exact .inr (.inl ⟨v, hk, by rw [ho, (regAt_eq_some_iff ha).1 hr]; rfl, rfl⟩)
    · refine .inr (.inr (.inl ⟨v, off, op, snap, hk, ho, ?_, hp, rfl⟩))
      rintro rfl
      exact hr rfl
    · exact .inr (.inr (.inr ⟨hp, .inl ⟨v, i, hk, by rw [ho, (regAt_eq_some_iff ha).1 hr]; rfl, hd, rfl⟩⟩))
    · exact .inr (.inr (.inr ⟨hp, .inr (.inl ⟨v, e, hk, by rw [ho, (regAt_eq_some_iff ha).1 hr]; rfl, hd, rfl⟩)⟩))
    · exact .inr (.inr (.inr ⟨hp, .inr (.inr (.inl ⟨v, r, hk, by rw [ho, (regAt_eq_some_iff ha).1 hr], hs, rfl⟩))⟩))
    · exact .inr (.inr (.inr ⟨hp, .inr (.inr (.inr rfl))⟩))

end Sys2Proof.Machine
end

