-- ==== Sys2Proof/Laws/Driver.lean ====
section
/-! SUPPORT. What the host driver's parts do, said once: runs of register writes, the result of `POLL`, and the end of a
call (R88, R207, R208). -/

namespace Sys2Proof.Machine

/-! ### Runs of register writes (R87, R88) -/

/-- The turns that write a list of registers. -/
def writeTurns (ws : List (Reg × Word)) : List Input := ws.map fun p => wrAccess p.1.offset p.2

/-- The state after a list of register writes. -/
def writeRegs (ws : List (Reg × Word)) (s : State) : State := ws.foldl (fun t p => writeReg t p.1 p.2) s

@[simp] theorem writeRegs_nil (s : State) : writeRegs [] s = s := rfl

@[simp] theorem writeRegs_cons (p : Reg × Word) (ws : List (Reg × Word)) (s : State) :
    writeRegs (p :: ws) s = writeRegs ws (writeReg s p.1 p.2) := rfl

theorem writeRegs_append (ws vs : List (Reg × Word)) (s : State) :
    writeRegs (ws ++ vs) s = writeRegs vs (writeRegs ws s) := by simp [writeRegs, List.foldl_append]

/-- Register writes change the operand registers alone. -/
theorem writeRegs_eq (ws : List (Reg × Word)) (s : State) :
    writeRegs ws s = { s with operands := (writeRegs ws s).operands } := by
  induction ws generalizing s with
  | nil => rfl
  | cons p ws ih => exact ih (writeReg s p.1 p.2)

/-- A list of writes to operand registers takes a step each, and leaves the turns after it. -/
theorem runSteps_writeTurns (ws : List (Reg × Word)) (hw : ∀ p ∈ ws, p.1 ≠ .status ∧ p.1 ≠ .cmd) {s : State}
    {rest : List Input} (hp : s.phase = .idle) (hr : s.inReset = false) (hi : s.inputs = writeTurns ws ++ rest) :
    runSteps ws.length s = .next (writeRegs ws { s with inputs := rest }) := by
  induction ws generalizing s with
  | nil =>
    have : s.inputs = rest := hi
    subst this
    rfl
  | cons p ws ih =>
    obtain ⟨hs, hc⟩ := hw p (.head _)
    have hstep : step s = .next (writeReg { s with inputs := writeTurns ws ++ rest } p.1 p.2) := by
      rw [step_of_cons (i := wrAccess p.1.offset p.2) (rest := writeTurns ws ++ rest) hi]
      simp only [wrAccess, agentTurn]
      rw [if_neg (by simp [hr]), hostAccess_write32 _ _ _ (reg_offset_lt _) (reg_offset_mod _)]
      exact hostWrite_reg_of_idle _ _ hp hs hc
    rw [List.length_cons, runSteps_succ _ hstep]
    exact ih (fun q hq => hw q (.tail _ hq)) hp hr rfl

theorem scheduleCost_append (a b : List Input) : scheduleCost (a ++ b) = scheduleCost a + scheduleCost b := by
  simp [scheduleCost]

@[simp] theorem scheduleCost_writeTurns (ws : List (Reg × Word)) : scheduleCost (writeTurns ws) = ws.length := by
  induction ws with
  | nil => rfl
  | cons p ws ih =>
    rw [writeTurns, List.map_cons, ← List.singleton_append, scheduleCost_append, ← writeTurns, ih, List.length_cons,
      Nat.add_comm]
    rfl

/-! ### The end of a call (R207, R208) -/

theorem pollResult_of_no_read {s t : State} (h : t.readLog = s.readLog) : pollResult s t = none := by
  simp [pollResult, h]

/-- The last read of a call is the result of its `POLL` (R88). -/
theorem pollResult_of_read {s t : State} {w : Word} {before : List Word}
    (h : t.readLog = w :: (before ++ s.readLog)) : pollResult s t = some w := by
  have hl : t.readLog.length ≠ s.readLog.length := by
    rw [h]
    simp
    omega
  rw [pollResult, if_neg hl, h]
  rfl

/-- The results may be read exactly on a `STATUS` read with `BUSY = 0`, `DONE = 1` and `ERR = 0` (R208). -/
theorem completedStatus_eq_ok_iff {r : Option Word} {w : Word} :
    completedStatus r = .ok w ↔ r = some w ∧ busyOf w = false ∧ doneOf w = true ∧ errOf w = false := by
  cases r with
  | none => simp [completedStatus]
  | some v =>
    unfold completedStatus
    dsimp only
    split_ifs with h1 h2
    · simp only [Option.some.injEq, false_iff]
      rintro ⟨rfl, hb, hd, -⟩
      simp [hb, hd] at h1
    · simp only [Option.some.injEq, false_iff]
      rintro ⟨rfl, -, -, he⟩
      simp [he] at h2
    · simp only [Except.ok.injEq, Option.some.injEq]
      constructor
      · rintro rfl
        simp only [Bool.or_eq_true, Bool.not_eq_true', not_or, Bool.not_eq_false, Bool.not_eq_true] at h1 h2
        exact ⟨rfl, h1.1, h1.2, h2⟩
      · exact fun h => h.1

theorem finish_of_ok {α : Type} {answer : Word → State → α} {read : State → State} {r : Option Word} {w : Word}
    (t : State) (h : completedStatus r = .ok w) :
    finish answer read r t = { answer := .ok (answer w t), state := read t } := by simp [finish, h]

/-- Without completion, or after an error, no result is read (R207, R208). -/
theorem finish_of_error {α : Type} {answer : Word → State → α} {read : State → State} {r : Option Word}
    {e : DriverError} (t : State) (h : completedStatus r = .error e) :
    finish answer read r t = { answer := .error e, state := t } := by simp [finish, h]

theorem runCall_of_next {α : Type} {stmts : List Stmt} {answer : Word → State → α} {read : State → State}
    {s t : State} (h : runSequence stmts s = .next t) :
    runCall stmts answer read s = .next (finish answer read (pollResult s t) t) := by simp [runCall, h]

end Sys2Proof.Machine
end

