-- ==== Sys2Proof/Laws/PerInstr.lean ====
section
/-! SUPPORT. Statements about every command as syntax, one lemma per constructor. -/

namespace Sys2Proof.Laws.Encoding

/-- A command is well formed, and whatever its ignored bits are, its word's field `OP` is its opcode (R80, R81). -/
def Statement (i : Instr) : Prop :=
  i.wellFormed = true ∧ ∀ ignored : BitVec 28, opField (encode i ignored) = opcode i

/-- The field `OP` of a word put together from ignored bits and an opcode (R80). -/
theorem opField_join (ignored : BitVec 28) (op : BitVec 4) :
    opField ((ignored.setWidth 32 <<< 4) ||| op.setWidth 32) = op := by
  apply BitVec.eq_of_getLsbD_eq
  intro k hk
  simp [opField, hk, show k < 32 by omega]

theorem gen : Statement .gen := ⟨rfl, fun ignored => opField_join ignored _⟩

theorem verify : Statement .verify := ⟨rfl, fun ignored => opField_join ignored _⟩

theorem zeroize : Statement .zeroize := ⟨rfl, fun ignored => opField_join ignored _⟩

end Sys2Proof.Laws.Encoding
end

