-- ==== Sys2Proof/Tests/Slice0.lean ====
section
/-! SUPPORT. Tests, each with its source in `spec/`, and for every obligation with hypotheses a concrete witness that
meets them. -/

namespace Sys2Proof.Tests

open Sys2Proof Sys2Proof.Machine

/-! ### Well-formedness: each check refuses an ill-formed term (R61, R87, R88, R202) -/

theorem test_wf_refuses_halfword : (Input.access ⟨.offset 0x08, 2, .read⟩).wellFormed = false := by decide
theorem test_wf_refuses_doubleword : (⟨.offset 0x20, 8, .write 0#32⟩ : Access).wellFormed = false := by decide
theorem test_wf_refuses_unaligned : (⟨.offset 0x0A, 4, .read⟩ : Access).wellFormed = false := by decide
theorem test_wf_refuses_outside : (⟨.offset 0x100, 4, .read⟩ : Access).wellFormed = false := by decide
theorem test_wf_refuses_address_above : (⟨.address (Config.base + 256), 4, .read⟩ : Access).wellFormed = false := by
  simp [Access.wellFormed, Target.wellFormed, offsetWellFormed, Config.windowBytes]
theorem test_wf_refuses_empty_key : (Stmt.ldkey []).wellFormed = false := by decide
theorem test_wf_refuses_long_key : (Stmt.ldkey (List.replicate 65 0x31#8)).wellFormed = false := by decide
theorem test_wf_refuses_odd_statement : (Stmt.wr 0x21 0#32).wellFormed = false := by decide
theorem test_wf_refuses_far_statement : (Stmt.rd 0x104).wellFormed = false := by decide
theorem test_wf_admits_the_last_offset : (⟨.offset 0xFC, 4, .read⟩ : Access).wellFormed = true := by decide

/-! ### Decoding, from the words of X30.1 written out bit by bit -/

theorem test_decode_gen : decode 0b00000000000000000000000000000001#32 = .ok .gen := by decide
theorem test_decode_gen_ignored : decode 0b11111111111111111111111111110001#32 = .ok .gen := by decide
theorem test_decode_verify : decode 0b00000000000000000000000000000010#32 = .ok .verify := by decide
theorem test_decode_zeroize : decode 0b00000000000000000000000000000011#32 = .ok .zeroize := by decide
theorem test_decode_zero : decode 0b00000000000000000000000000000000#32 = .error (.illegalOp 0b0000#4) := by decide
theorem test_decode_bit4 : decode 0b00000000000000000000000000010000#32 = .error (.illegalOp 0b0000#4) := by decide
theorem test_decode_four : decode 0b00000000000000000000000000000100#32 = .error (.illegalOp 0b0100#4) := by decide
theorem test_decode_fifteen : decode 0b00000000000000000000000000001111#32 = .error (.illegalOp 0b1111#4) := by decide
theorem test_decode_table : [1, 2, 3].map (decodeTableWord 32) = [some .gen, some .verify, some .zeroize] := by decide

/-! ### Small states -/

/-- The word registers of `K20`, "12345678901234567890" (X30.2). -/
def keyWords : Vector Word 16 :=
  #v[0x31323334#32, 0x35363738#32, 0x39303132#32, 0x33343536#32, 0x37383930#32, 0#32, 0#32, 0#32,
    0#32, 0#32, 0#32, 0#32, 0#32, 0#32, 0#32, 0#32]

/-- The word registers of `K32` (X30.2). -/
def longKeyWords : Vector Word 16 :=
  #v[0x31323334#32, 0x35363738#32, 0x39303132#32, 0x33343536#32, 0x37383930#32, 0x31323334#32, 0x35363738#32,
    0x39303132#32, 0#32, 0#32, 0#32, 0#32, 0#32, 0#32, 0#32, 0#32]

/-- Reset operands with the key `K20`. -/
def keyed : OperandRegs := { OperandRegs.reset with key := keyWords, keylen := 20#7 }

/-- An idle core with given operands. -/
def idleWith (o : OperandRegs) : State := { State.reset with operands := o }

/-- A core with a command pending on given operands. -/
def busyWith (i : Instr) (o : OperandRegs) : State := { idleWith o with phase := .busy i o }

/-- The next state of an outcome, or the reset state. -/
def nextOr (x : Host.Outcome State Fault Refusal) : State :=
  match x with
  | .next t => t
  | _ => State.reset

/-- A host write of a whole register. -/
def wr (s : State) (off : Nat) (v : Word) : State := nextOr (hostAccess (write32 off v) s)

/-! ### Commands, one step each -/

set_option maxRecDepth 100000 in
/-- R170's example (S2, counter 0): the digest, `TRUNC`, `CODE` and the code string. -/
theorem test_gen_rfc4226 :
    let t := nextOr (exec .gen (busyWith .gen keyed))
    (t.results.digest[0], t.results.digest[4], t.results.trunc, t.results.code, t.results.codeAscii[0],
      t.results.codeAscii[1]) =
      (0xcc93cf18#32, 0xb7cde4b0#32, 0x4C93CF18#32, 755224#32, 0x37353532#32, 0x32340000#32) := by decide +kernel

set_option maxRecDepth 100000 in
/-- S3, `TIME = 59`, SHA-256, 8 digits: "46119246", `LASTCTR = 1`, `REMAIN = 1`. -/
theorem test_gen_totp_sha256 :
    let o : OperandRegs := { keyed with
      key := longKeyWords, keylen := 32#7, timeLo := 59#32, ctrl := Ctrl.ofWord 0x00000183#32 }
    let t := nextOr (exec .gen (busyWith .gen o))
    (t.results.trunc, t.results.code, t.results.lastctrLo, t.results.remain, statusWord t) =
      (0x2C78E04E#32, 46119246#32, 1#32, 1#32, 0x22#32) := by decide +kernel

set_option maxRecDepth 100000 in
/-- R174's example, V1: "969429", the code of counter 3, is outside the window of counter 5. -/
theorem test_verify_outside :
    let o : OperandRegs := { keyed with
      counterLo := 5#32, candlen := 6#8, cand := #v[0x39363934#32, 0x32390000#32, 0#32] }
    let t := nextOr (exec .verify (busyWith .verify o))
    (statusWord t, t.results.lastctrLo) = (0x22#32, 5#32) := by decide +kernel

set_option maxRecDepth 100000 in
/-- R174's example, V2: "338314", the code of counter 4, is inside it. -/
theorem test_verify_inside :
    let o : OperandRegs := { keyed with
      counterLo := 5#32, candlen := 6#8, cand := #v[0x33333833#32, 0x31340000#32, 0#32] }
    let t := nextOr (exec .verify (busyWith .verify o))
    (statusWord t, t.results.lastctrLo) = (0x2A#32, 5#32) := by decide +kernel

/-- R180's example: `STATUS = 0x22`, `KEYLEN = 0`, `CODE = 0`. -/
theorem test_zeroize_completes :
    let s : State := { busyWith .zeroize keyed with results := { ResultRegs.zero with code := 755224#32 } }
    let t := nextOr (exec .zeroize s)
    (statusWord t, readOffset t 0x14, readOffset t 0x3C, t.operands.keyBytes) =
      (0x22#32, 0#32, 0#32, List.replicate 64 0#8) := by decide

/-- R160, R180: ZEROIZE is accepted with `KEYLEN = 0`. -/
theorem test_zeroize_accepted : statusWord (nextOr (exec .zeroize State.reset)) = 0x1#32 := by decide

/-! ### The machine around them -/

/-- R222: GEN, the first command after reset, fails with `BAD_KEYLEN`. -/
theorem test_first_command : statusWord (nextOr (Machine.step (State.reset.withFetchWord 32 1))) = 0x226#32 := by decide

/-- R226's example: `KEYLEN = 0` and `DIGITS = 12` together give `BAD_KEYLEN`. -/
theorem test_priority : statusWord (wr (wr State.reset 0x08 0xC0#32) 0x0C 1#32) = 0x226#32 := by decide

/-- R65, R31: a write while busy is dropped and sets `OVERRUN`; a write of `0x10` to `STATUS` clears it again. -/
theorem test_overrun :
    let t := wr (busyWith .gen keyed) 0x14 7#32
    (statusWord t, t.operands.keylen, statusWord (wr t 0x10 0x10#32)) = (0x11#32, 20#7, 0x1#32) := by decide

/-- R23: reserved bits of `CTRL` read 0. -/
theorem test_ctrl_mask : readOffset (wr State.reset 0x08 0xFFFFFFFF#32) 0x08 = 0xFFF7#32 := by decide

/-- X30.2: the candidate "755224" in its registers. -/
theorem test_candidate_words :
    (List.range 3).map (packedWord (encCandidate "755224".toList)) = [0x37353532#32, 0x32340000#32, 0#32] := by decide

/-- R201: `"3132..."` gives bytes `0x31, 0x32`. -/
theorem test_hex : hexToBytes "3132".toList = [0x31#8, 0x32#8] := by decide

/-- R204, R206: the source's defaults, `period_seconds=30, digits=6, window=1`. -/
theorem test_defaults : (defaultPeriod, defaultDigits, defaultWindow) = (30#32, 6#4, 1) := by decide

/-- R208: results may be read on `STATUS = 0x22`, not while busy, not before a command, and not after an error. -/
theorem test_completed_status :
    [some 0x22#32, some 0x1#32, some 0x0#32, some 0x226#32, none].map completedStatus =
      [.ok 0x22#32, .error .notCompleted, .error .notCompleted, .error (.coreError 2#4), .error .notCompleted] := by
  decide

/-- R20: `TRUNC` is at `0x38` and `CODE` at `0x3C`. -/
theorem test_trunc_and_code :
    let s : State := { State.reset with results := { ResultRegs.zero with trunc := 7#32, code := 8#32 } }
    (readOffset s 0x38, readOffset s 0x3C) = (7#32, 8#32) := by decide

/-- R145's examples. -/
theorem test_code_string :
    (codeString 6 72768, codeString 6 0) =
      ([0x30#8, 0x37#8, 0x32#8, 0x37#8, 0x36#8, 0x38#8], List.replicate 6 0x30#8) := by decide

/-- R147's examples with `PERIOD = 30`. -/
theorem test_remain : [59, 60, 1111111111].map (fun n => secondsRemaining (BitVec.ofNat 64 n) 30#32) =
    [1#32, 30#32, 29#32] := by decide

/-! ### Witnesses: states and operands that meet the hypotheses of each obligation, clause by clause -/

/-- Idle with operands at one end of what R222 and R223 admit. -/
def lowOps : OperandRegs := { keyed with keylen := 1#7, ctrl := Ctrl.ofWord 0x50#32 }

/-- Idle with operands at the other end, and the counter from `TIME`. -/
def highOps : OperandRegs := { keyed with keylen := 64#7, ctrl := Ctrl.ofWord 0xFF92#32 }

/-- A state with a list of turns. -/
def withTurns (s : State) (turns : List Input) : State := { s with inputs := turns }

theorem keyed_legal : keyed.Legal := by unfold OperandRegs.Legal; decide
theorem lowOps_legal : lowOps.Legal := by unfold OperandRegs.Legal; decide
theorem highOps_legal : highOps.Legal := by unfold OperandRegs.Legal; decide

theorem witness_ResetAbandonsTheCommandAndHoldsTheCore :
    ∃ (s : State) (turns rest : List Input), s.phase ≠ .idle ∧
      (∀ i ∈ turns, i ≠ .resetAssert ∧ i ≠ .resetRelease) ∧
      s.inputs = .resetAssert :: (turns ++ .resetRelease :: rest) :=
  ⟨withTurns (busyWith .gen keyed) [.resetAssert, .access (read32 0), .sequencer, .poll 1, .resetRelease, .poll 0],
    [.access (read32 0), .sequencer, .poll 1], [.poll 0], by decide, by decide, rfl⟩

theorem witness_ReservedOffsetsReadZeroAndIgnoreWrites :
    (∀ off ∈ [0x5C, 0xC0, 0xFC], off % 4 = 0 ∧ (off = 0x5C ∨ (0xC0 ≤ off ∧ off ≤ 0xFC))) ∧
    State.reset.phase = .idle ∧ (busyWith .gen keyed).phase = .busy .gen keyed := by decide

theorem witness_ReadsHaveNoSideEffects :
    (∀ off ∈ [0, 0x0C, 0x5C, 0x80, 0xFC], off < 256 ∧ off % 4 = 0) ∧ 0x78 = (Reg.digest 6).offset := by decide

theorem witness_BusErrorExactlyOnRefusedAccesses : ∃ off width, width = 4 ∧ off < 256 ∧ off % 4 = 0 :=
  ⟨0xFC, 4, by decide⟩

theorem witness_HostAddressReachesItsOffset :
    (∃ off addr, off < 256 ∧ addr = Config.base + off) ∧
    ∃ addr, addr < Config.base ∨ Config.base + 256 ≤ addr :=
  ⟨⟨255, _, by decide, rfl⟩, ⟨Config.base + 256, .inr (Nat.le_refl _)⟩⟩

theorem witness_CtrlWriteStoresItsFields :
    State.reset.phase = .idle ∧ (0xFFFFFFFF#32).getLsbD 0 = true ∧ (0xFFFFFFFF#32).getLsbD 1 = true := by decide

theorem witness_OperandRegistersReadBackWhatIsStored :
    State.reset.phase = .idle ∧ ∃ r : Reg, r = .keylen ∨ r = .period ∨ r = .candlen ∨ r = .counterHi ∨
      r = .counterLo ∨ r = .timeHi ∨ r = .timeLo ∨ ∃ i, r = .cand i :=
  ⟨rfl, .cand 2, by simp⟩

theorem witness_WideOperandsAreTheirHalves : State.reset.phase = .idle := rfl

theorem witness_KeyWriteStoresFourBytesAndReadsZero : State.reset.phase = .idle ∧ 63 / 4 = (15 : Fin 16).val := by
  decide

theorem witness_ReadOnlyRegistersIgnoreWrites :
    State.reset.phase = .idle ∧ ∃ r : Reg, r = .id ∨ r = .version ∨ r = .lastctrHi ∨ r = .lastctrLo ∨ r = .trunc ∨
      r = .code ∨ r = .remain ∨ (∃ i, r = .codeAscii i) ∨ ∃ i, r = .digest i :=
  ⟨rfl, .digest 7, by simp⟩

theorem witness_WritesWhileBusyAreDroppedAndSetOverrun :
    (busyWith .verify keyed).phase = .busy .verify keyed ∧ ∀ off ∈ [0x0C, 0xFC], off < 256 ∧ off % 4 = 0 ∧ off ≠ 0x10 := by
  decide

theorem witness_ByteArrayPackingRoundTrips :
    ∃ (a : List Byte) (n i j : Nat), a.length = 4 * n ∧ i < n ∧ j < 4 :=
  ⟨List.replicate 64 1#8, 16, 15, 3, by decide⟩

theorem witness_DecodeAndEncodeAgree : ∃ (v : Word) (i : Instr), decode v = .ok i := ⟨0xFFFFFFF1#32, .gen, by decide⟩

theorem witness_StepRunsTheDecodedCommand :
    (∃ (s : State) (v : Word) (i : Instr) (rest : List Input), s.inReset = false ∧ s.phase = .idle ∧
      s.inputs = commandAccess v :: rest ∧ decode v = .ok i) ∧
    decodeTableWord 32 3 = some .zeroize :=
  ⟨⟨withTurns (idleWith keyed) [commandAccess 2#32], 2#32, .verify, [], by decide⟩, by decide⟩

theorem witness_StepCompletesThePendingCommand :
    (∃ (s : State) (op : Instr) (snap : OperandRegs) (rest : List Input), s.inReset = false ∧
      s.phase = .busy op snap ∧ s.inputs = .sequencer :: rest) ∧
    (∃ (s : State) (op : Instr) (snap : OperandRegs), s.inReset = false ∧ s.phase = .busy op snap ∧ s.inputs = []) ∧
    (∃ (s : State) (rest : List Input), s.inReset = false ∧ s.phase = .idle ∧ s.inputs = .sequencer :: rest) ∧
    ∃ s : State, s.inReset = false ∧ s.phase = .idle ∧ s.inputs = [] :=
  ⟨⟨withTurns (busyWith .gen keyed) [.sequencer], .gen, keyed, [], by decide⟩,
    ⟨busyWith .gen keyed, .gen, keyed, by decide⟩, ⟨withTurns State.reset [.sequencer], [], by decide⟩,
    ⟨State.reset, by decide⟩⟩

theorem witness_StepServesTheHostAccess :
    ∃ (s : State) (a : Access) (rest : List Input), s.inReset = false ∧ s.inputs = .access a :: rest :=
  ⟨withTurns State.reset [.access (read32 0)], read32 0, [], by decide⟩

theorem witness_LegalCommandIsAccepted :
    ∀ o ∈ [lowOps, highOps], (idleWith o).phase = .idle ∧ 1 ≤ o.keylen.toNat ∧ o.keylen.toNat ≤ 64 ∧ 5 ≤ o.digits ∧
      o.digits ≤ 9 ∧ (o.ctrl.csrc = .time → o.period ≠ 0#32) := by decide

theorem witness_ZeroizeIsAlwaysAccepted : (idleWith keyed).phase = .idle := rfl

/-- One witness for each failing check, at both ends of its range. -/
theorem witness_FirstFailingCheckIsReported :
    (idleWith keyed).phase = .idle ∧
    ((0x10#32).toNat % 16 = 0 ∧ 4 ≤ (4#32).toNat % 16 ∧ 4 ≤ (15#32).toNat % 16) ∧
    ((1#32).toNat % 16 = 1 ∧ (2#32).toNat % 16 = 2) ∧
    (∀ n ∈ [0#7, 65#7, 127#7], (idleWith { keyed with keylen := n }).operands.keylen.toNat = 0 ∨
      64 < (idleWith { keyed with keylen := n }).operands.keylen.toNat) ∧
    (∀ n ∈ [4#4, 10#4], 1 ≤ keyed.keylen.toNat ∧ keyed.keylen.toNat ≤ 64 ∧
      ((idleWith { keyed with ctrl := { keyed.ctrl with digits := n } }).operands.digits < 5 ∨
        9 < (idleWith { keyed with ctrl := { keyed.ctrl with digits := n } }).operands.digits)) ∧
    ∃ o, (idleWith { highOps with period := 0#32 }).operands = o ∧ 1 ≤ o.keylen.toNat ∧ o.keylen.toNat ≤ 64 ∧
      5 ≤ o.digits ∧ o.digits ≤ 9 ∧ o.ctrl.csrc = .time ∧ o.period = 0#32 :=
  ⟨rfl, by decide, by decide, by decide, by decide, _, rfl, by decide, by decide, by decide, by decide, rfl, rfl⟩

theorem witness_GenWritesItsResults :
    ∀ o ∈ [keyed, lowOps, highOps], (busyWith .gen o).phase = .busy .gen o ∧ o.Legal := by
  simp [busyWith, keyed_legal, lowOps_legal, highOps_legal]

theorem witness_VerifyMatchesExactlyTheWindow :
    ∀ o ∈ [keyed, lowOps, highOps], (busyWith .verify o).phase = .busy .verify o ∧ o.Legal := by
  simp [busyWith, keyed_legal, lowOps_legal, highOps_legal]

theorem witness_ZeroizeErasesKeyCandidateAndResults :
    (busyWith .zeroize keyed).phase = .busy .zeroize keyed := rfl

theorem witness_CommandFrame :
    ∀ i : Instr, (∃ t, exec i (idleWith keyed) = .next t) ∧ ∃ t, exec i (busyWith i keyed) = .next t :=
  fun i => ⟨⟨_, exec_of_idle i _ rfl⟩, ⟨_, exec_of_busy i (op := i) (snap := keyed) rfl⟩⟩

/-- Two snapshots that differ in the key beyond `KEYLEN` and in the candidate beyond `DIGITS`. -/
theorem witness_ResultsDependOnTheSnapshotAlone :
    let a := keyed
    let b := { keyed with key := keyWords.set 15 0xFFFFFFFF#32, cand := #v[0#32, 0#32, 0xFF#32] }
    a ≠ b ∧ (busyWith .verify a).phase = .busy .verify a ∧ (busyWith .verify b).phase = .busy .verify b ∧
      a.ctrl = b.ctrl ∧ a.keylen = b.keylen ∧ a.period = b.period ∧ a.candlen = b.candlen ∧
      a.counter = b.counter ∧ a.time = b.time ∧
      (∀ k, k < a.keylen.toNat → a.keyBytes.getD k 0#8 = b.keyBytes.getD k 0#8) ∧
      (∀ k, k < a.digits → a.candBytes.getD k 0#8 = b.candBytes.getD k 0#8) ∧
      (∃ t, exec .verify (busyWith .verify a) = .next t) ∧ ∃ t, exec .verify (busyWith .verify b) = .next t := by
  refine ⟨by decide, rfl, rfl, rfl, rfl, rfl, rfl, rfl, rfl, by decide, by decide, ⟨_, exec_verify_of_busy rfl⟩,
    ⟨_, exec_verify_of_busy rfl⟩⟩

set_option maxRecDepth 100000 in
/-- V2: the candidate "338314" is the code of counter 5 - 1, so both clauses of the statement apply. -/
theorem witness_VerifyAcceptsCodesOfTheWindow :
    let o : OperandRegs := { keyed with
      counterLo := 5#32, candlen := 6#8, cand := #v[0x33333833#32, 0x31340000#32, 0#32] }
    (busyWith .verify o).phase = .busy .verify o ∧ o.check = none ∧ -(o.window : Int) ≤ -1 ∧ (-1 : Int) ≤ o.window ∧
      o.candlen.toNat = o.digits ∧ o.candBytes.take o.digits = o.codeStringAt (windowCounter o.baseCounter (-1)) ∧
      (nextOr (exec .verify (busyWith .verify o))).status.matched = true := by decide +kernel

set_option maxRecDepth 10000 in
theorem witness_PaddingIsWholeBlocks :
    ∃ m : List Byte, m.length < 2 ^ 61 ∧ m.length = 72 ∧ 1 < (messageBlocks m).length ∧ 15 < 16 :=
  ⟨List.replicate 72 0#8, by decide⟩

theorem witness_TrailingZeroKeyBytesDoNotMatter : ∃ (k : List Byte) (n : Nat), 1 ≤ k.length ∧ k.length + n ≤ 64 :=
  ⟨[1#8], 63, by decide⟩

theorem witness_DynamicTruncation :
    ∀ alg, ∃ digest : List Byte, digest.length = digestLength alg ∧ truncOffset digest = 15 :=
  fun alg => ⟨List.replicate (digestLength alg) 0xFF#8, by cases alg <;> decide⟩

theorem witness_CodeStringIsTheDecimalNumeral : 999999999 < 10 ^ 9 ∧ 0 < 10 ^ 5 := by decide

theorem witness_TimeStepAndSecondsRemaining :
    ∃ (t : Dword) (p : Word), p ≠ 0#32 ∧ t.toNat % p.toNat = 0 := ⟨60#64, 30#32, by decide⟩

/-- The invariant holds of a busy core with a schedule left to run. -/
theorem busy_inv (turns : List Input) : (withTurns (busyWith .gen keyed) turns).Inv where
  busy := by
    rintro op snap h
    obtain ⟨rfl, rfl⟩ := Phase.busy.inj h
    exact ⟨rfl, by decide, rfl, rfl⟩
  err := by
    show Status.reset.ErrOk
    constructor <;> decide
  code := by
    show ResultRegs.zero.CodeOk
    exact ⟨by decide, .inl ⟨rfl, rfl, by decide⟩⟩
  fresh := by
    intro h
    cases h
  reset := by
    intro h
    cases h

/-- A safe schedule around a pending command: accesses the bus performs, a poll, and a reset. -/
def safeTurns : List Input :=
  [.access (read32 0xFC), .access (write32 0x0C 1#32), .poll 0, .sequencer, .resetAssert, .resetRelease]

theorem witness_EveryStepKeepsTheInvariant :
    ∃ s t : State, s.Inv ∧ s.phase ≠ .idle ∧ Machine.step s = .next t :=
  ⟨withTurns (busyWith .gen keyed) [.access (write32 0x10 0#32)], _, busy_inv _, by decide, rfl⟩

theorem witness_SafeStatesNeverStop : ∃ s : State, s.Safe ∧ s.phase ≠ .idle :=
  ⟨withTurns (busyWith .gen keyed) safeTurns, ⟨busy_inv _, by unfold State.ScheduleOk; decide⟩, by decide⟩

theorem witness_EveryScheduleEndsIdle : ∃ s : State, s.Safe ∧ s.inputs ≠ [] :=
  ⟨withTurns (busyWith .gen keyed) safeTurns, ⟨busy_inv _, by unfold State.ScheduleOk; decide⟩, by decide⟩

theorem witness_ResultsDoNotDependOnTheSchedule :
    ∃ (s : State) (v : Word) (i : Instr) (accesses : List Access) (rest : List Input), s.inReset = false ∧
      s.phase = .idle ∧ decode v = .ok i ∧ commandCheck i s.operands = none ∧
      (∀ a ∈ accesses, a.wellFormed = true) ∧ accesses ≠ [] ∧
      s.inputs = commandAccess v :: (accesses.map Input.access ++ .sequencer :: rest) :=
  ⟨withTurns (idleWith keyed) [commandAccess 1#32, .access (write32 0x80 0#32), .sequencer], 1#32, .gen,
    [write32 0x80 0#32], [], by decide⟩

/-- A core with `IRQ` set. -/
def interrupted (s : State) : State := { s with status := { s.status with irq := true } }

/-- One witness for each way `IRQ` is cleared and each way it is set. -/
theorem witness_IrqChangesOnlyAsStated :
    (∀ turn ∈ [Input.access (write32 0x10 0x20#32), Input.resetAssert],
      ∃ t, Machine.step (withTurns (interrupted State.reset) [turn]) = .next t ∧
        (interrupted State.reset).status.irq = true ∧ t.status.irq = false) ∧
    (∃ s t, Machine.step s = .next t ∧ s.inReset = true ∧ s.inputs = [.resetRelease] ∧ s.status.irq = true ∧
      t.status.irq = false) ∧
    (∃ t, Machine.step (withTurns State.reset [commandAccess 0#32]) = .next t ∧ State.reset.status.irq = false ∧
      t.status.irq = true) ∧
    ∀ turns ∈ [[], [Input.sequencer]],
      ∃ t, Machine.step (withTurns (busyWith .zeroize keyed) turns) = .next t ∧
        (busyWith .zeroize keyed).status.irq = false ∧ t.status.irq = true := by
  refine ⟨?_, ⟨{ withTurns (interrupted State.reset) [.resetRelease] with inReset := true }, _, rfl, rfl, rfl, rfl, rfl⟩,
    ⟨_, rfl, rfl, rfl⟩, ?_⟩
  · intro turn h
    simp only [List.mem_cons, List.not_mem_nil, or_false] at h
    rcases h with rfl | rfl <;> exact ⟨_, rfl, rfl, rfl⟩
  · intro turns h
    simp only [List.mem_cons, List.not_mem_nil, or_false] at h
    rcases h with rfl | rfl <;> exact ⟨_, rfl, rfl, rfl⟩

theorem witness_OverrunIsSetOnlyByAWriteWhileBusy :
    ∃ s t : State, Machine.step s = .next t ∧ s.status.overrun = false ∧ t.status.overrun = true :=
  ⟨withTurns (busyWith .gen keyed) [commandAccess 1#32], _, rfl, rfl, rfl⟩

theorem witness_KeyChangesOnlyByKeyWriteZeroizeOrReset :
    (∃ s t : State, Machine.step s = .next t ∧ s.phase = .idle ∧ t.operands.key ≠ s.operands.key) ∧
    (∃ s t : State, Machine.step s = .next t ∧ s.phase ≠ .idle ∧ s.inputs = [] ∧ t.operands.key ≠ s.operands.key) ∧
    ∃ s t : State, Machine.step s = .next t ∧ s.inputs = [.resetAssert] ∧ t.operands.key ≠ s.operands.key :=
  ⟨⟨withTurns State.reset [.access (write32 0xBC 1#32)], _, rfl, rfl, by decide⟩,
    ⟨busyWith .zeroize keyed, _, rfl, by decide, rfl, by decide⟩,
    ⟨withTurns (idleWith keyed) [.resetAssert], _, rfl, rfl, by decide⟩⟩

theorem witness_ResultsChangeOnlyAtCompletionOrReset :
    ∃ s t : State, Machine.step s = .next t ∧ t.results ≠ s.results :=
  ⟨{ busyWith .zeroize keyed with results := { ResultRegs.zero with code := 1#32 } }, _, rfl, by decide⟩

theorem witness_NoAccessRevealsTheKey :
    ∃ s1 s2 : State, s1 ≠ s2 ∧ s1.hideKey = s2.hideKey ∧ (∃ t, hostAccess (read32 0x80) s1 = .next t) ∧
      hostAccess (read32 0x102) s1 = .fault .busErrorOutsideWindow :=
  ⟨idleWith keyed, idleWith { keyed with key := longKeyWords }, by decide, by decide, ⟨_, rfl⟩, rfl⟩

theorem witness_PollEndsWithBusyZero :
    ∃ (s : State) (op : Instr) (snap : OperandRegs) (n : Nat) (rest : List Input), s.inReset = false ∧
      s.phase = .busy op snap ∧ s.inputs = .poll n :: rest :=
  ⟨withTurns (busyWith .gen keyed) [.poll 2, .sequencer], .gen, keyed, 2, [.sequencer], by decide⟩

theorem witness_SeedNormalizationIsIdempotent :
    ∃ raw hex recased pre post ws : List Char, normalizeHexSeed raw = .ok hex ∧ recased ≠ raw ∧ recased ≠ raw.map lowerChar ∧
      List.Forall₂ (fun c d => d.toNat = c.toNat ∨ (0x41 ≤ c.toNat ∧ c.toNat ≤ 0x5A ∧ d.toNat = c.toNat + 0x20) ∨
        (0x41 ≤ d.toNat ∧ d.toNat ≤ 0x5A ∧ c.toNat = d.toNat + 0x20)) raw recased ∧
      raw = pre ++ post ∧ ws ≠ [] ∧ ∀ c ∈ ws, c.toNat = 0x20 ∨ c.toNat = 0x09 ∨ c.toNat = 0x0A ∨ c.toNat = 0x0D := by
  refine ⟨'A' :: 'b' :: List.replicate 62 '0', 'a' :: 'b' :: List.replicate 62 '0', 'a' :: 'B' :: List.replicate 62 '0',
    ['A'], 'b' :: List.replicate 62 '0', [' '], by rfl, by decide, by decide, ?_, by rfl, by simp, ?_⟩
  · exact .cons (by decide) (.cons (by decide) (List.forall₂_same.2 fun _ _ => .inl rfl))
  · intro c h
    obtain rfl := List.mem_singleton.1 h
    decide

theorem witness_SeedNormalizationAcceptsExactlySeeds :
    (∃ raw : List Char, raw ≠ [] ∧ ∀ c ∈ raw, isNamedWhitespace c = true ∨ (0x30 ≤ c.toNat ∧ c.toNat ≤ 0x39) ∨
      (0x41 ≤ c.toNat ∧ c.toNat ≤ 0x46) ∨ (0x61 ≤ c.toNat ∧ c.toNat ≤ 0x66)) ∧
    ∃ (raw : List Char) (c : Char), c ∈ raw ∧ 0x21 ≤ c.toNat ∧ c.toNat ≤ 0x7E ∧ (c.toNat < 0x30 ∨ 0x39 < c.toNat) ∧
      (c.toNat < 0x41 ∨ 0x46 < c.toNat) ∧ (c.toNat < 0x61 ∨ 0x66 < c.toNat) := by
  refine ⟨⟨List.replicate 64 'F', by simp, ?_⟩, ['g'], 'g', by simp, by decide⟩
  intro c h
  obtain rfl := List.eq_of_mem_replicate h
  decide

theorem witness_HexToBytesPairsNibbles :
    ∃ h : List Char, h.length = 64 ∧ (∀ c ∈ h, isLowerHex c = true) ∧ 31 < 32 := by
  refine ⟨List.replicate 64 'f', by simp, ?_, by decide⟩
  intro c h
  obtain rfl := List.eq_of_mem_replicate h
  decide

theorem witness_LdkeyLoadsTheKey :
    ∀ n ∈ [1, 64], ∃ secret : List Byte, State.reset.phase = .idle ∧ State.reset.inReset = false ∧
      1 ≤ secret.length ∧ secret.length ≤ 64 ∧ secret.length = n := by
  intro n h
  refine ⟨List.replicate n 1#8, rfl, rfl, ?_⟩
  simp only [List.mem_cons, List.not_mem_nil, or_false] at h
  rcases h with rfl | rfl <;> simp

theorem witness_CandidateEqualityIsStringEquality :
    ∀ o ∈ [lowOps, highOps], (idleWith o).phase = .idle ∧ (idleWith o).inReset = false ∧
      5 ≤ (idleWith o).operands.digits ∧ (idleWith o).operands.digits ≤ 9 := by decide

theorem witness_DriverGenerateAnswersTheCode :
    ∃ (secret : List Byte) (digits : BitVec 4) (s : State), s.phase = .idle ∧ s.inReset = false ∧
      1 ≤ secret.length ∧ secret.length ≤ 64 ∧ 5 ≤ digits.toNat ∧ digits.toNat ≤ 9 :=
  ⟨List.replicate 64 1#8, 9#4, State.reset, by decide⟩

theorem witness_DriverGenerateCurrentAnswersCodeAndRemaining :
    ∃ (secret : List Byte) (period : Word) (digits : BitVec 4) (s : State), s.phase = .idle ∧ s.inReset = false ∧
      1 ≤ secret.length ∧ secret.length ≤ 64 ∧ 5 ≤ digits.toNat ∧ digits.toNat ≤ 9 ∧ period ≠ 0#32 :=
  ⟨[1#8], 1#32, 5#4, State.reset, by decide⟩

theorem witness_DriverVerifyAnswersTheWindow :
    ((-1 : Int) < 0 ∧ (255 : Int) < 256) ∧
    ∀ window ∈ [(0 : Int), 255], ∃ (secret : List Byte) (period : Word) (digits : BitVec 4) (s : State), 0 ≤ window ∧
      window ≤ 255 ∧ s.phase = .idle ∧ s.inReset = false ∧ 1 ≤ secret.length ∧ secret.length ≤ 64 ∧
      5 ≤ digits.toNat ∧ digits.toNat ≤ 9 ∧ period ≠ 0#32 := by
  refine ⟨by decide, fun window h => ⟨[1#8], 30#32, 6#4, State.reset, ?_⟩⟩
  simp only [List.mem_cons, List.not_mem_nil, or_false] at h
  rcases h with rfl | rfl <;> decide

theorem witness_DriverDefaultsAreTheSources :
    ∃ (secret : List Byte) (s : State), s.phase = .idle ∧ s.inReset = false ∧ 1 ≤ secret.length ∧ secret.length ≤ 64 :=
  ⟨List.replicate 64 1#8, State.reset, by decide⟩

/-- One witness for each clause: an empty secret, a digit count at either side, a zero period, and reset asserted. -/
theorem witness_DriverReportsTheCoreError :
    (∃ (secret : List Byte) (window : Int) (s : State), secret.length ≤ 64 ∧ 0 ≤ window ∧ window ≤ 255 ∧
      s.phase = .idle ∧ s.inReset = false ∧ secret = []) ∧
    (∃ (secret : List Byte) (window : Int) (s : State), secret.length ≤ 64 ∧ 0 ≤ window ∧ window ≤ 255 ∧
      s.phase = .idle ∧ s.inReset = false ∧ secret ≠ [] ∧ ((4#4).toNat < 5 ∨ 9 < (4#4).toNat) ∧
      ((10#4).toNat < 5 ∨ 9 < (10#4).toNat) ∧ 5 ≤ (6#4).toNat ∧ (6#4).toNat ≤ 9 ∧ (0#32 : Word) = 0#32) ∧
    ∃ (secret : List Byte) (window : Int) (s : State), secret.length ≤ 64 ∧ 0 ≤ window ∧ window ≤ 255 ∧
      s.inReset = true :=
  ⟨⟨[], 0, State.reset, by decide⟩, ⟨List.replicate 64 1#8, 255, State.reset, by decide⟩,
    ⟨[], 1, resetAssert State.reset, by decide⟩⟩

end Sys2Proof.Tests
end

/-! SUPPORT. The invariant of the core is kept by every operation of the machine, and so by every step. -/

namespace Sys2Proof.Machine

/-! ### Ways to meet one part of the invariant -/

theorem busyOk_of_idle {s : State} (hp : s.phase = .idle) : s.BusyOk := by
  intro op snap h
  simp [hp] at h

theorem freshOk_of_busy {s : State} {op : Instr} {snap : OperandRegs} (hp : s.phase = .busy op snap) :
    s.FreshOk := by
  intro h
  simp [hp] at h

theorem freshOk_of_done {s : State} (hd : s.status.done = true) : s.FreshOk := by
  intro _ h
  simp [hd] at h

theorem resetOk_of_released {s : State} (hr : s.inReset = false) : s.ResetOk := by
  intro h
  simp [hr] at h

theorem Status.errOk_of_clear {st : Status} (he : st.err = false) (hc : st.errcode = .none) : st.ErrOk := by
  simp [Status.ErrOk, he, hc]

theorem Status.failed_errOk {code : ErrCode} (st : Status) (hc : code ≠ .none) : (st.failed code).ErrOk := by
  simp [Status.ErrOk, hc]

@[simp] theorem Status.acknowledge_reset (v : Word) : Status.reset.acknowledge v = Status.reset := by
  simp [Status.acknowledge, Status.reset]

/-- A pending command was accepted with `ERR = 0` (R160), so it has no error code to keep. -/
theorem State.Inv.errcode_of_busy {s : State} {op : Instr} {snap : OperandRegs} (h : s.Inv)
    (hp : s.phase = .busy op snap) : s.status.errcode = .none := by
  obtain ⟨-, -, -, herr⟩ := h.busy op snap hp
  by_contra hc
  simp [h.err.1.2 hc] at herr

theorem check_ne_some_none (o : OperandRegs) : o.check ≠ some .none := by
  unfold OperandRegs.check
  split_ifs <;> simp

/-- A check that fails reports an error (R222 to R224). -/
theorem ne_none_of_commandCheck {i : Instr} {o : OperandRegs} {code : ErrCode} (h : commandCheck i o = some code) :
    code ≠ .none := by
  rintro rfl
  cases i with
  | gen => exact check_ne_some_none o h
  | verify => exact check_ne_some_none o h
  | zeroize => cases h

/-! ### The code in the result registers (R40, R41, R43) -/

theorem zero_codeOk : ResultRegs.zero.CodeOk := ⟨by decide, .inl ⟨rfl, rfl, by decide⟩⟩

theorem genResults_codeOk (o : OperandRegs) (h : o.Legal) : (genResults o).CodeOk := by
  obtain ⟨-, -, h5, h9, -⟩ := h
  have hcode : (genResults o).code.toNat = o.codeAt o.baseCounter := genResults_code o h9
  refine ⟨truncated_lt _, .inr ⟨o.digits, h5, h9, genResults_code o h9, ?_⟩⟩
  rw [genResults_codeBytes o h9, hcode]

theorem verifyResults_codeOk (snap : OperandRegs) {r : ResultRegs} (h : r.CodeOk) : (verifyResults snap r).CodeOk := h

/-- What a completed command leaves in the result registers: GEN its code, VERIFY the old one, ZEROIZE none. -/
theorem completionOf_codeOk {i : Instr} {snap : OperandRegs} {s : State} (hc : commandCheck i snap = none)
    (h : s.results.CodeOk) : (completionOf i snap s).results.CodeOk := by
  cases i with
  | gen => exact genResults_codeOk snap (snap.check_eq_none_iff.1 hc)
  | verify => exact verifyResults_codeOk snap h
  | zeroize => exact zero_codeOk

/-! ### The invariant along each operation -/

/-- The invariant is about the registers, the phase and the reset input alone. -/
theorem State.Inv.congr {s t : State} (h : s.Inv) (ho : t.operands = s.operands) (hr : t.results = s.results)
    (hs : t.status = s.status) (hp : t.phase = s.phase) (hi : t.inReset = s.inReset) : t.Inv where
  busy := by simpa only [State.BusyOk, ho, hs, hp] using h.busy
  err := by simpa only [hs] using h.err
  code := by simpa only [hr] using h.code
  fresh := by simpa only [State.FreshOk, hr, hs, hp] using h.fresh
  reset := by simpa only [State.ResetOk, ho, hr, hs, hp, hi] using h.reset

/-- The reset values meet the invariant, whether the reset input is asserted or not (R250, R252). -/
theorem inv_of_reset_values {t : State} (ho : t.operands = OperandRegs.reset) (hr : t.results = ResultRegs.zero)
    (hs : t.status = Status.reset) (hp : t.phase = .idle) : t.Inv where
  busy := busyOk_of_idle hp
  err := by rw [hs]; exact Status.errOk_of_clear rfl rfl
  code := by rw [hr]; exact zero_codeOk
  fresh := fun _ _ => ⟨hr, hs⟩
  reset := fun _ => ⟨ho, hr, hs, hp⟩

theorem resetAssert_inv (s : State) : (resetAssert s).Inv := inv_of_reset_values rfl rfl rfl rfl

theorem resetRelease_inv {s : State} (h : s.Inv) : (resetRelease s).Inv := by
  unfold resetRelease
  split_ifs
  · exact inv_of_reset_values rfl rfl rfl rfl
  · exact h

theorem afterTurn_inv {s : State} (h : s.Inv) : (afterTurn s).Inv := h.congr rfl rfl rfl rfl rfl

theorem hostPoll_inv (n : Nat) {s : State} (h : s.Inv) : (hostPoll n s).Inv :=
  h.congr (by simp) (by simp) (by simp) (by simp) (by simp)

section Released

variable {s : State} (h : s.Inv) (hr : s.inReset = false)
include h hr

theorem acknowledge_inv (v : Word) : (acknowledge s v).Inv where
  busy := h.busy
  err := h.err
  code := h.code
  fresh := by
    intro hp hd
    obtain ⟨hres, hst⟩ := h.fresh hp hd
    exact ⟨hres, by simp [hst]⟩
  reset := resetOk_of_released hr

theorem overrun_inv {op : Instr} {snap : OperandRegs} (hp : s.phase = .busy op snap) : (overrun s).Inv where
  busy := h.busy
  err := h.err
  code := h.code
  fresh := freshOk_of_busy hp
  reset := resetOk_of_released hr

theorem writeReg_inv (r : Reg) (v : Word) (hp : s.phase = .idle) : (writeReg s r v).Inv where
  busy := busyOk_of_idle hp
  err := h.err
  code := h.code
  fresh := h.fresh
  reset := resetOk_of_released hr

theorem raiseError_inv {code : ErrCode} (hc : code ≠ .none) (hp : s.phase = .idle) : (raiseError code s).Inv where
  busy := busyOk_of_idle hp
  err := s.status.failed_errOk hc
  code := h.code
  fresh := freshOk_of_done rfl
  reset := resetOk_of_released hr

theorem begin_inv {i : Instr} (hc : commandCheck i s.operands = none) : (begin i s).Inv where
  busy := by
    intro op snap hp
    obtain ⟨rfl, rfl⟩ := Phase.busy.inj hp
    exact ⟨rfl, hc, rfl, rfl⟩
  err := Status.errOk_of_clear rfl rfl
  code := h.code
  fresh := freshOk_of_busy rfl
  reset := resetOk_of_released hr

/-- Acceptance and failure at acceptance (R160, R221) keep the invariant. -/
theorem accept_inv (i : Instr) (hp : s.phase = .idle) : (accept i s).Inv := by
  rcases accept_cases i s with ⟨code, hc, ht⟩ | ⟨hc, ht⟩
  · rw [ht]
    exact raiseError_inv h hr (ne_none_of_commandCheck hc) hp
  · rw [ht]
    exact begin_inv h hr hc

/-- Completion (R162) keeps the invariant: the pending command was accepted on legal operands and with `ERR = 0`. -/
theorem completionOf_inv {op : Instr} {snap : OperandRegs} (hp : s.phase = .busy op snap) :
    (completionOf op snap s).Inv := by
  obtain ⟨-, hc, -, herr⟩ := h.busy op snap hp
  obtain ⟨m, hst⟩ := completionOf_status op snap s
  exact
    { busy := busyOk_of_idle (by simp)
      err := Status.errOk_of_clear (by simp [hst, herr]) (by simp [hst, h.errcode_of_busy hp])
      code := completionOf_codeOk hc h.code
      fresh := freshOk_of_done (by simp [hst])
      reset := resetOk_of_released (by simp [hr]) }

theorem sequencerTurn_inv {t : State} (ht : sequencerTurn s = .next t) : t.Inv := by
  rcases sequencerTurn_cases ht with ⟨-, rfl⟩ | ⟨op, snap, hp, rfl⟩
  · exact h
  · exact completionOf_inv h hr hp

theorem hostAccess_inv {a : Access} {t : State} (ht : hostAccess a s = .next t) : t.Inv := by
  rcases hostAccess_effect ht with ⟨v, -, rfl⟩ | ⟨v, -, -, rfl⟩ | ⟨v, off, op, snap, -, -, -, hp, rfl⟩ |
    ⟨hp, ⟨v, i, -, -, -, rfl⟩ | ⟨v, e, -, -, -, rfl⟩ | ⟨v, r, -, -, -, rfl⟩ | rfl⟩
  · exact h.congr rfl rfl rfl rfl rfl
  · exact acknowledge_inv h hr v
  · exact overrun_inv h hr hp
  · exact accept_inv h hr i hp
  · exact raiseError_inv h hr (by decide) hp
  · exact writeReg_inv h hr r v hp
  · exact h

end Released

/-- Settles O41: each of the six things a step can do keeps the invariant. -/
theorem everyStepKeepsTheInvariant : Obligations.EveryStepKeepsTheInvariant := by
  intro s t h hstep
  have ha : (afterTurn s).Inv := afterTurn_inv h
  rcases step_cases hstep with ⟨rest, -, rfl⟩ | ⟨rest, -, rfl⟩ | ⟨-, rfl⟩ | ⟨hr, a, rest, -, ht⟩ |
    ⟨-, n, rest, -, rfl⟩ | ⟨hr, -, ht⟩
  · exact resetAssert_inv _
  · exact resetRelease_inv ha
  · exact ha
  · exact hostAccess_inv ha hr ht
  · exact hostPoll_inv n ha
  · exact sequencerTurn_inv ha hr ht

end Sys2Proof.Machine

/-! SUPPORT. What a write through the window changes as the host reads it, and what it leaves (R20 to R45, R65, R66). -/

namespace Sys2Proof.Machine

/-! ### The offsets of no register (R45) -/

/-- The aligned offsets of the window at which no register stands (R45). -/
theorem regAt_eq_none_iff {off : Nat} (hw : off < 256) (ha : off % 4 = 0) :
    regAt off = none ↔ off = 0x5C ∨ 0xC0 ≤ off := by
  obtain ⟨n, rfl⟩ : ∃ n, off = 4 * n := ⟨off / 4, by omega⟩
  have hn : n < 64 := by omega
  interval_cases n <;> simp [regAt]

theorem readOffset_reserved {off : Nat} (s : State) (hr : regAt off = none) : readOffset s off = 0#32 := by
  simp [readOffset, hr]

/-! ### A register's own offset -/

theorem hostAccess_read32_reg (r : Reg) (s : State) :
    hostAccess (read32 r.offset) s = .next (logRead s (readReg s r)) := by
  rw [hostAccess_read32 _ s (reg_offset_lt r) (reg_offset_mod r), hostRead, readOffset_offset]

theorem hostAccess_write32_status (v : Word) (s : State) :
    hostAccess (write32 Reg.status.offset v) s = .next (acknowledge s v) := by
  rw [hostAccess_write32 _ v s (reg_offset_lt _) (reg_offset_mod _), hostWrite_status]

theorem hostAccess_write32_reg_of_idle {s : State} (r : Reg) (v : Word) (hp : s.phase = .idle) (hs : r ≠ .status)
    (hc : r ≠ .cmd) : hostAccess (write32 r.offset v) s = .next (writeReg s r v) := by
  rw [hostAccess_write32 _ v s (reg_offset_lt r) (reg_offset_mod r), hostWrite_reg_of_idle r v hp hs hc]

/-! ### What the host reads after a write -/

/-- A write to one register leaves what every other reads (R20): no register is stored in two places. -/
theorem readReg_writeReg_of_ne (s : State) {q r : Reg} (v : Word) (hne : q ≠ r) :
    readReg (writeReg s r v) q = readReg s q := by
  cases q with
  | cand i =>
    cases r with
    | cand j =>
      have hij : j.val ≠ i.val := fun e => hne (congrArg Reg.cand (Fin.ext e.symm))
      simp [readReg, OperandRegs.write, Vector.getElem_set_ne, hij]
    | _ => rfl
  | ctrl | keylen | period | candlen | counterHi | counterLo | timeHi | timeLo =>
    cases r <;> simp_all [readReg, OperandRegs.write]
  | _ => rfl

theorem readOffset_writeReg_of_ne (s : State) (r : Reg) (v : Word) (off : Nat) (hne : off ≠ r.offset)
    (ha : off % 4 = 0) : readOffset (writeReg s r v) off = readOffset s off :=
  readOffset_eq_of_readReg_eq (fun _ hq => readReg_writeReg_of_ne s v hq) off hne ha

/-- `KEYBYTES` change by a write to `KEYi` alone (R38). -/
theorem write_keyBytes_of_ne_key (o : OperandRegs) (v : Word) {r : Reg} (hr : ∀ i, r ≠ .key i) :
    (o.write v r).keyBytes = o.keyBytes := by
  cases r with
  | key i => exact absurd rfl (hr i)
  | _ => rfl

/-- Byte `k` of the key after a write to `KEYi` (R84): byte `k mod 4` of the word if `k` is one of the four bytes of
that register. -/
theorem write_key_keyBytes_getD (o : OperandRegs) (v : Word) (i : Fin 16) (k : Nat) (hk : k < 64) :
    (o.write v (.key i)).keyBytes.getD k 0#8 =
      if k / 4 = i.val then wordByte v (k % 4) else o.keyBytes.getD k 0#8 := by
  have hq : k / 4 < 16 := by omega
  have hbyte (ws : Vector Word 16) : (bytesOfWords ws.toList).getD k 0#8 = wordByte ws[k / 4] (k % 4) := by
    have h := bytesOfWords_getD ws.toList (k / 4) (k % 4) (by simpa using hq) (Nat.mod_lt _ (by decide))
    rw [Nat.div_add_mod] at h
    rw [h, List.getD_eq_getElem _ _ (by simpa using hq)]
    simp
  simp only [OperandRegs.keyBytes, OperandRegs.write, hbyte]
  split_ifs with hi
  · simp [hi]
  · simp [Vector.getElem_set_ne, Ne.symm hi]

theorem readReg_acknowledge_of_ne (s : State) (v : Word) {q : Reg} (hne : q ≠ .status) :
    readReg (acknowledge s v) q = readReg s q := by
  cases q with
  | status => exact absurd rfl hne
  | _ => rfl

/-- `STATUS` after a write to it (R31): bits 4 and 5 are cleared where a 1 is written. -/
theorem statusWord_acknowledge (s : State) (v : Word) :
    statusWord (acknowledge s v) = statusWord s &&& ~~~(v &&& 0x30#32) := by
  apply BitVec.eq_of_getLsbD_eq
  intro k hk
  rw [BitVec.getLsbD_and, statusWord_getLsbD _ k hk, statusWord_getLsbD _ k hk]
  interval_cases k <;> simp

/-! ### Fields narrower than their register (R23, R32, R36) -/

@[simp] theorem HashAlg.bit_ofBit (b : Bool) : (HashAlg.ofBit b).bit = b := by cases b <;> rfl

@[simp] theorem CounterSource.bit_ofBit (b : Bool) : (CounterSource.ofBit b).bit = b := by cases b <;> rfl

theorem HashAlg.ofBit_eq_sha256_iff (b : Bool) : HashAlg.ofBit b = .sha256 ↔ b = true := by
  cases b <;> simp [HashAlg.ofBit]

theorem CounterSource.ofBit_eq_time_iff (b : Bool) : CounterSource.ofBit b = .time ↔ b = true := by
  cases b <;> simp [CounterSource.ofBit]

/-- `CTRL` keeps the bits of its five fields and reads 0 in the others (R23, R29). -/
theorem Ctrl.toWord_ofWord (v : Word) : (Ctrl.ofWord v).toWord = v &&& 0x0000FFF7#32 := by
  apply BitVec.eq_of_getLsbD_eq
  intro k hk
  interval_cases k <;> simp [Ctrl.toWord, Ctrl.ofWord, bitField]

/-- The low `n` bits of a register, stored and read back. -/
theorem setWidth_extractLsb'_eq_and (v : Word) {n : Nat} (hn : n ≤ 32) :
    (v.extractLsb' 0 n).setWidth 32 = v &&& BitVec.ofNat 32 (2 ^ n - 1) := by
  have hp : 2 ^ n ≤ 2 ^ 32 := Nat.pow_le_pow_right (by decide) hn
  apply BitVec.eq_of_toNat_eq
  rw [BitVec.toNat_and, BitVec.toNat_ofNat, Nat.mod_eq_of_lt (a := 2 ^ n - 1) (by omega),
    Nat.and_two_pow_sub_one_eq_mod, BitVec.toNat_setWidth, BitVec.extractLsb'_toNat, Nat.shiftRight_zero,
    Nat.mod_eq_of_lt (Nat.lt_of_lt_of_le (Nat.mod_lt _ (Nat.two_pow_pos n)) hp)]

/-- What an operand register other than `CTRL` and `KEYi` reads after it was written (R32 to R37). -/
theorem readReg_writeReg_self (s : State) (v : Word) (r : Reg)
    (hr : r = .keylen ∨ r = .period ∨ r = .candlen ∨ r = .counterHi ∨ r = .counterLo ∨ r = .timeHi ∨ r = .timeLo ∨
      ∃ i, r = .cand i) :
    readReg (writeReg s r v) r = if r = .keylen then v &&& 0x7F#32 else if r = .candlen then v &&& 0xFF#32 else v := by
  rcases hr with rfl | rfl | rfl | rfl | rfl | rfl | rfl | ⟨i, rfl⟩
  · exact setWidth_extractLsb'_eq_and v (n := 7) (by decide)
  · rfl
  · exact setWidth_extractLsb'_eq_and v (n := 8) (by decide)
  · rfl
  · rfl
  · rfl
  · rfl
  · simp [readReg, OperandRegs.write]

/-! ### The fields of `STATUS` (R31, R220) -/

theorem Phase.isBusy_iff (p : Phase) : p.isBusy = true ↔ p ≠ .idle := by
  cases p <;> simp [Phase.isBusy]

/-- `ERRCODE` never reads 5 to 15 (R220). -/
theorem ErrCode.toBits_le (c : ErrCode) : c.toBits.toNat ≤ 4 := by
  cases c <;> decide

theorem statusWord_errcode (s : State) : (statusWord s).extractLsb' 8 4 = s.status.errcode.toBits := by
  apply BitVec.eq_of_getLsbD_eq
  intro k hk
  rw [BitVec.getLsbD_extractLsb', statusWord_getLsbD s (8 + k) (by omega)]
  interval_cases k <;> simp

/-- A group of bits within 7:6 or 31:12 reads 0 (R29, R31). -/
theorem statusWord_reserved (s : State) (start len : Nat) (h : (6 ≤ start ∧ start + len ≤ 8) ∨ 12 ≤ start)
    (hw : start + len ≤ 32) : (statusWord s).extractLsb' start len = 0#len := by
  apply BitVec.eq_of_getLsbD_eq
  intro k hk
  rw [BitVec.getLsbD_extractLsb', statusWord_getLsbD s (start + k) (by omega)]
  simp (disch := omega) only [if_neg, Bool.and_false, BitVec.getLsbD_zero]

/-! ### The obligations of the register window (R20 to R45, R65) -/

/-- Settles O4: no register stands at a reserved offset, so a read finds none and a write reaches none. -/
theorem reservedOffsetsReadZeroAndIgnoreWrites : Obligations.ReservedOffsetsReadZeroAndIgnoreWrites := by
  intro s off v ha hoff
  have hw : off < 256 := by omega
  have hr : regAt off = none := (regAt_eq_none_iff hw ha).2 (by omega)
  rw [hostAccess_read32 off s hw ha, hostAccess_write32 off v s hw ha]
  refine ⟨?_, fun hp => hostWrite_reserved_of_idle v hp hr, fun op snap hp => hostWrite_of_busy v hp (by simp [hr])⟩
  rw [hostRead, readOffset_reserved s hr, logRead]

/-- Settles O8, by the round trip of a word through the fields of `CTRL`. -/
theorem ctrlWriteStoresItsFields : Obligations.CtrlWriteStoresItsFields := by
  intro s v hp
  exact ⟨writeReg s .ctrl v, hostAccess_write32_reg_of_idle .ctrl v hp (by decide) (by decide), Ctrl.toWord_ofWord v,
    HashAlg.ofBit_eq_sha256_iff _, CounterSource.ofBit_eq_time_iff _, rfl, rfl, rfl,
    readOffset_writeReg_of_ne s .ctrl v, rfl⟩

/-- Settles O9: the bits that `r` stores are read back, and no other register reads another value. -/
theorem operandRegistersReadBackWhatIsStored : Obligations.OperandRegistersReadBackWhatIsStored := by
  intro s v r hp hr
  have hs : r ≠ .status := by rintro rfl; simp at hr
  have hc : r ≠ .cmd := by rintro rfl; simp at hr
  have hk : ∀ i, r ≠ .key i := by rintro i rfl; simp at hr
  exact ⟨writeReg s r v, hostAccess_write32_reg_of_idle r v hp hs hc, readReg_writeReg_self s v r hr,
    readOffset_writeReg_of_ne s r v, write_keyBytes_of_ne_key s.operands v hk, rfl⟩

/-- Settles O11: register `i` holds bytes `4i` to `4i + 3` of the key, and no register shows them. -/
theorem keyWriteStoresFourBytesAndReadsZero : Obligations.KeyWriteStoresFourBytesAndReadsZero := by
  intro s v i hp
  refine ⟨writeReg s (.key i) v, hostAccess_write32_reg_of_idle (.key i) v hp (by simp) (by simp),
    write_key_keyBytes_getD s.operands v i, fun off ha => ?_, rfl, rfl⟩
  by_cases hoff : off = (Reg.key i).offset
  · rw [hoff, readOffset_offset, readOffset_offset]
    rfl
  · exact readOffset_writeReg_of_ne s (.key i) v off hoff ha

/-- Settles O12: a read-only register stores nothing, and `ID` and `VERSION` are constants. -/
theorem readOnlyRegistersIgnoreWrites : Obligations.ReadOnlyRegistersIgnoreWrites := by
  refine ⟨fun s v r hp hr => ?_, fun s => ⟨hostAccess_read32_reg .id s, hostAccess_read32_reg .version s⟩⟩
  have hs : r ≠ .status := by rintro rfl; simp at hr
  have hc : r ≠ .cmd := by rintro rfl; simp at hr
  have hsame : s.operands.write v r = s.operands := by
    rcases hr with rfl | rfl | rfl | rfl | rfl | rfl | rfl | ⟨i, rfl⟩ | ⟨i, rfl⟩ <;> rfl
  rw [hostAccess_write32_reg_of_idle r v hp hs hc, writeReg, hsame]

/-- Settles O13: acknowledging touches `OVERRUN` and `IRQ` alone, in either phase. -/
theorem statusWriteClearsWhereOneIsWritten : Obligations.StatusWriteClearsWhereOneIsWritten := fun s v =>
  ⟨acknowledge s v, hostAccess_write32_status v s, statusWord_acknowledge s v,
    readOffset_eq_of_not_status fun _ hq => readReg_acknowledge_of_ne s v hq, rfl⟩

/-- Settles O3, register by register; the reserved offsets are those that `regAt` leaves out. -/
theorem registerMapIsExact : Obligations.RegisterMapIsExact := by
  refine ⟨fun r => ⟨reg_offset_lt r, reg_offset_mod r, regAt_offset r⟩, fun off hw ha => regAt_eq_none_iff hw ha,
    rfl, rfl, fun _ => ⟨rfl, rfl⟩, fun _ => rfl, fun _ => rfl, fun s => ?_⟩
  have hread (r : Reg) : readOffset s r.offset = readReg s r := readOffset_offset s r
  exact ⟨hread .id, hread .version, hread .cmd, hread .ctrl, hread .status, hread .keylen, hread .period,
    hread .candlen, hread .counterHi, hread .counterLo, hread .timeHi, hread .timeLo, hread .lastctrHi,
    hread .lastctrLo, hread .trunc, hread .code, hread .remain,
    fun i => ⟨hread (.codeAscii i), hread (.cand i)⟩, fun i => hread (.digest i), fun i => hread (.key i)⟩

/-- Settles O15, field by field from the bits of `STATUS`. -/
theorem statusWordLayout : Obligations.StatusWordLayout := by
  intro s
  have hbit := statusWord_getLsbD s
  have hbusy : (readReg s .status).getLsbD 0 = s.phase.isBusy := hbit 0 (by decide)
  refine ⟨?_, hbit 1 (by decide), hbit 2 (by decide), hbit 3 (by decide), hbit 4 (by decide), hbit 5 (by decide),
    statusWord_reserved s 6 2 (by decide) (by decide), statusWord_errcode s,
    statusWord_reserved s 12 20 (by decide) (by decide), s.status.errcode.toBits_le⟩
  rw [hbusy, Phase.isBusy_iff]

end Sys2Proof.Machine

/-! SUPPORT. What a command computes depends on its snapshot alone, of the key and the candidate on the bytes it uses
(R38, R48, R173). -/

namespace Sys2Proof.Machine

/-- Two snapshots that a command cannot tell apart: equal but for the key beyond `KEYLEN` (R38) and the candidate beyond
`DIGITS` (R173). -/
structure OperandRegs.SameInputs (a b : OperandRegs) : Prop where
  ctrl    : a.ctrl = b.ctrl
  keylen  : a.keylen = b.keylen
  period  : a.period = b.period
  candlen : a.candlen = b.candlen
  counter : a.counter = b.counter
  time    : a.time = b.time
  key     : ∀ k, k < a.keylen.toNat → a.keyBytes.getD k 0#8 = b.keyBytes.getD k 0#8
  cand    : ∀ k, k < a.digits → a.candBytes.getD k 0#8 = b.candBytes.getD k 0#8

/-! ### GEN's registers, one by one (R170) -/

theorem genResults_remain (o : OperandRegs) :
    (genResults o).remain = if o.ctrl.csrc = .time then secondsRemaining o.time o.period else 0#32 := by
  simp only [genResults]
  cases o.ctrl.csrc <;> rfl

theorem genResults_codeAscii_getElem (o : OperandRegs) (i : Nat) (hi : i < 3) :
    (genResults o).codeAscii[i] = packedWord (codeBuffer o.digits (o.codeAt o.baseCounter)) i := by
  interval_cases i <;> rfl

theorem genResults_digest_getElem (o : OperandRegs) (i : Nat) (hi : i < 8) :
    (genResults o).digest[i] = packedWord (o.hmacAt o.baseCounter) i := by
  interval_cases i <;> rfl

/-- Result registers agree when they agree register by register. -/
theorem ResultRegs.ext {r q : ResultRegs} (hHi : r.lastctrHi = q.lastctrHi) (hLo : r.lastctrLo = q.lastctrLo)
    (htrunc : r.trunc = q.trunc) (hcode : r.code = q.code) (hremain : r.remain = q.remain)
    (hascii : ∀ (i : Nat) (hi : i < 3), r.codeAscii[i] = q.codeAscii[i])
    (hdigest : ∀ (i : Nat) (hi : i < 8), r.digest[i] = q.digest[i]) : r = q := by
  have ha : r.codeAscii = q.codeAscii := Vector.ext hascii
  have hd : r.digest = q.digest := Vector.ext hdigest
  cases r
  cases q
  simp_all

namespace OperandRegs.SameInputs

variable {a b : OperandRegs} (h : a.SameInputs b)
include h

theorem digits_eq : a.digits = b.digits := by rw [OperandRegs.digits, h.ctrl, OperandRegs.digits]

theorem window_eq : a.window = b.window := by rw [OperandRegs.window, h.ctrl, OperandRegs.window]

theorem baseCounter_eq : a.baseCounter = b.baseCounter := by
  simp only [OperandRegs.baseCounter, h.ctrl, h.counter, h.time, h.period]

theorem secret_eq : a.secret = b.secret := by
  apply bytes_ext
  · simp [OperandRegs.secret, h.keylen]
  · intro k hk
    have hlt : k < a.keylen.toNat ∧ k < 64 := by simpa [OperandRegs.secret] using hk
    have hb : k < b.keylen.toNat := h.keylen ▸ hlt.1
    have hkey := h.key k hlt.1
    simp only [List.getD_eq_getElem?_getD] at hkey ⊢
    rwa [OperandRegs.secret, OperandRegs.secret, List.getElem?_take_of_lt hlt.1, List.getElem?_take_of_lt hb]

theorem hmacAt_eq (c : Dword) : a.hmacAt c = b.hmacAt c := by
  rw [OperandRegs.hmacAt, h.ctrl, h.secret_eq, OperandRegs.hmacAt]

theorem codeAt_eq (c : Dword) : a.codeAt c = b.codeAt c := by
  rw [OperandRegs.codeAt, h.digits_eq, h.hmacAt_eq, OperandRegs.codeAt]

theorem codeStringAt_eq (c : Dword) : a.codeStringAt c = b.codeStringAt c := by
  rw [OperandRegs.codeStringAt, h.digits_eq, h.codeAt_eq, OperandRegs.codeStringAt]

theorem digestAt_eq : a.hmacAt a.baseCounter = b.hmacAt b.baseCounter := by
  rw [h.baseCounter_eq, h.hmacAt_eq]

theorem baseCode_eq : a.codeAt a.baseCounter = b.codeAt b.baseCounter := by
  rw [h.baseCounter_eq, h.codeAt_eq]

theorem genResults_eq : genResults a = genResults b := by
  apply ResultRegs.ext
  · exact congrArg hiWord h.baseCounter_eq
  · exact congrArg loWord h.baseCounter_eq
  · exact congrArg truncated h.digestAt_eq
  · exact congrArg (BitVec.ofNat 32) h.baseCode_eq
  · rw [genResults_remain, genResults_remain, h.ctrl, h.time, h.period]
  · intro i hi
    rw [genResults_codeAscii_getElem _ i hi, genResults_codeAscii_getElem _ i hi, h.digits_eq, h.baseCode_eq]
  · intro i hi
    rw [genResults_digest_getElem _ i hi, genResults_digest_getElem _ i hi, h.digestAt_eq]

theorem candidateEquals_eq (str : List Byte) : a.candidateEquals str = b.candidateEquals str := by
  have hbytes : (∀ k, k < a.digits → a.candBytes.getD k 0#8 = str.getD k 0#8) ↔
      ∀ k, k < a.digits → b.candBytes.getD k 0#8 = str.getD k 0#8 :=
    forall₂_congr fun k hk => by rw [h.cand k hk]
  rw [Bool.eq_iff_iff, candidateEquals_iff, candidateEquals_iff, hbytes, h.candlen, h.digits_eq]

theorem verifies_eq : a.verifies = b.verifies := by
  simp only [OperandRegs.verifies, h.window_eq, h.baseCounter_eq, h.codeStringAt_eq, h.candidateEquals_eq]

end OperandRegs.SameInputs

@[simp] theorem verifyResults_lastctr (snap : OperandRegs) (r : ResultRegs) :
    (verifyResults snap r).lastctr = snap.baseCounter := by
  simp [verifyResults, ResultRegs.lastctr]

/-- Settles O31, command by command: GEN and VERIFY compute from inputs that agree, and ZEROIZE writes constants. -/
theorem resultsDependOnTheSnapshotAlone : Obligations.ResultsDependOnTheSnapshotAlone := by
  intro s1 s2 t1 t2 i a b hp1 hp2 hctrl hkeylen hperiod hcandlen hcounter htime hkey hcand h1 h2
  have h : a.SameInputs b := ⟨hctrl, hkeylen, hperiod, hcandlen, hcounter, htime, hkey, hcand⟩
  rw [exec_of_busy i hp1] at h1
  rw [exec_of_busy i hp2] at h2
  obtain rfl := Host.Outcome.next.inj h1
  obtain rfl := Host.Outcome.next.inj h2
  cases i with
  | gen => simp [completionOf, h.genResults_eq]
  | verify => simp [completionOf, h.verifies_eq, h.baseCounter_eq]
  | zeroize => simp [completionOf]

end Sys2Proof.Machine

/-! SUPPORT. The bus and the step that serves it: which accesses are refused, what a performed one changes, and what a
step leaves of `OVERRUN` and of the result registers (R60 to R67). -/

namespace Sys2Proof.Machine

/-! ### Refused accesses (R60 to R62, U12) -/

/-- An access is refused for its width, its target or its alignment, and for nothing else (R61, U12). -/
theorem hostAccess_fault_iff (a : Access) (s : State) :
    (∃ f, hostAccess a s = .fault f) ↔ a.width ≠ 4 ∨ ∀ off, a.target.windowOffset = some off → off % 4 ≠ 0 := by
  constructor
  · rintro ⟨f, hf⟩
    by_contra hok
    push Not at hok
    obtain ⟨hw, off, ho, ha⟩ := hok
    obtain ⟨t, ht⟩ := hostAccess_next s hw ho ha
    simp [ht] at hf
  · intro hbad
    unfold hostAccess
    split_ifs with hw
    · exact ⟨_, rfl⟩
    · have halign := hbad.resolve_left hw
      cases ho : a.target.windowOffset with
      | none => exact ⟨_, rfl⟩
      | some off => exact ⟨.busErrorAlignment, by simp [halign off ho]⟩

theorem windowOffset_offset_eq_some_iff {off o : Nat} :
    (Target.offset off).windowOffset = some o ↔ off < Config.windowBytes ∧ off = o := by
  simp [Target.windowOffset]

/-- The same list for an access by offset: its width, the window's end, and `off mod 4` (R61, U12). -/
theorem hostAccess_offset_fault_iff (off width : Nat) (k : AccessKind) (s : State) :
    (∃ f, hostAccess ⟨.offset off, width, k⟩ s = .fault f) ↔
      width ≠ 4 ∨ Config.windowBytes ≤ off ∨ off % 4 ≠ 0 := by
  rw [hostAccess_fault_iff]
  refine or_congr_right ⟨fun hall => ?_, fun hbad o ho => ?_⟩
  · by_contra hok
    exact hall off (windowOffset_offset_eq_some_iff.2 ⟨by omega, rfl⟩) (by omega)
  · obtain ⟨hoff, rfl⟩ := windowOffset_offset_eq_some_iff.1 ho
    omega

theorem windowOffset_address_inside {off : Nat} (h : off < Config.windowBytes) :
    (Target.address (Config.base + off)).windowOffset = (Target.offset off).windowOffset := by
  simp [Target.windowOffset, h]

theorem windowOffset_address_outside {addr : Nat}
    (h : addr < Config.base ∨ Config.base + Config.windowBytes ≤ addr) : (Target.address addr).windowOffset = none :=
  if_neg (by omega)

/-- "The core decodes only `off`" (R60): two targets with one window offset give one access. -/
theorem hostAccess_congr_target {x y : Target} (h : x.windowOffset = y.windowOffset) (width : Nat) (k : AccessKind)
    (s : State) : hostAccess ⟨x, width, k⟩ s = hostAccess ⟨y, width, k⟩ s := by
  simp only [hostAccess, h]

/-! ### Offsets that read 0 (R30, R38, R45) -/

theorem exists_key_of_offset {off : Nat} (ha : off % 4 = 0) (hlo : 0x80 ≤ off) (hhi : off < 0xC0) :
    ∃ i, off = (Reg.key i).offset :=
  ⟨⟨(off - 0x80) / 4, by omega⟩, by simp only [Reg.offset]; omega⟩

theorem readOffset_eq_zero {off : Nat} (s : State) (hw : off < 256) (ha : off % 4 = 0)
    (h : off = 0x0C ∨ off = 0x5C ∨ 0x80 ≤ off) : readOffset s off = 0#32 := by
  by_cases hr : regAt off = none
  · exact readOffset_reserved s hr
  · rw [regAt_eq_none_iff hw ha] at hr
    rcases h with rfl | rfl | hlo
    · rfl
    · simp at hr
    · obtain ⟨i, rfl⟩ := exists_key_of_offset ha hlo (by omega)
      rw [readOffset_offset]
      rfl

/-! ### A write dropped while busy (R65) -/

theorem hostAccess_write32_of_busy {off : Nat} {s : State} {op : Instr} {snap : OperandRegs} (v : Word)
    (hp : s.phase = .busy op snap) (hw : off < 256) (ha : off % 4 = 0) (hne : off ≠ 0x10) :
    hostAccess (write32 off v) s = .next (overrun s) := by
  rw [hostAccess_write32 off v s hw ha]
  exact hostWrite_of_busy v hp fun hr => hne ((regAt_eq_some_iff ha).1 hr)

theorem readReg_overrun_of_ne (s : State) {q : Reg} (hne : q ≠ .status) : readReg (overrun s) q = readReg s q := by
  cases q with
  | status => exact absurd rfl hne
  | _ => rfl

theorem statusWord_overrun (s : State) : statusWord (overrun s) = statusWord s ||| 0x10#32 := by
  apply BitVec.eq_of_getLsbD_eq
  intro k hk
  rw [BitVec.getLsbD_or, statusWord_getLsbD _ k hk, statusWord_getLsbD _ k hk]
  interval_cases k <;> simp

/-! ### What each agent leaves of `OVERRUN` and of the result registers -/

/-- Releasing the reset input clears the core when it was asserted, and does nothing when it was not (R250). -/
theorem resetRelease_cases (s : State) :
    (s.inReset = true ∧ resetRelease s = { clearRegisters s with inReset := false }) ∨
      (s.inReset = false ∧ resetRelease s = s) := by
  unfold resetRelease
  cases hr : s.inReset with
  | true => exact .inl ⟨rfl, rfl⟩
  | false => exact .inr ⟨rfl, rfl⟩

@[simp] theorem accept_overrun (i : Instr) (s : State) : (accept i s).status.overrun = s.status.overrun := by
  rcases accept_cases i s with ⟨c, -, h⟩ | ⟨-, h⟩ <;> simp [h]

@[simp] theorem completionOf_overrun (i : Instr) (snap : OperandRegs) (s : State) :
    (completionOf i snap s).status.overrun = s.status.overrun := by
  obtain ⟨m, h⟩ := completionOf_status i snap s
  simp [h]

theorem sequencerTurn_overrun {s t : State} (h : sequencerTurn s = .next t) :
    t.status.overrun = s.status.overrun := by
  rcases sequencerTurn_cases h with ⟨-, rfl⟩ | ⟨op, snap, -, rfl⟩
  · rfl
  · exact completionOf_overrun op snap s

/-- An access sets `OVERRUN` only as R65 says. -/
theorem hostAccess_sets_overrun {a : Access} {s t : State} (h : hostAccess a s = .next t)
    (hs : s.status.overrun = false) (ht : t.status.overrun = true) :
    s.phase ≠ .idle ∧ ∃ v off, a.kind = .write v ∧ a.target.windowOffset = some off ∧ off ≠ 0x10 := by
  have hne : t.status.overrun ≠ s.status.overrun := by simp [hs, ht]
  rcases hostAccess_effect h with ⟨v, -, rfl⟩ | ⟨v, -, -, rfl⟩ | ⟨v, off, op, snap, hk, ho, hoff, hp, rfl⟩ |
    ⟨-, ⟨v, i, -, -, -, rfl⟩ | ⟨v, e, -, -, -, rfl⟩ | ⟨v, r, -, -, -, rfl⟩ | rfl⟩
  · exact absurd rfl hne
  · simp [hs] at ht
  · exact ⟨by simp [hp], v, off, hk, ho, hoff⟩
  · exact absurd (accept_overrun i s) hne
  · exact absurd rfl hne
  · exact absurd rfl hne
  · exact absurd rfl hne

/-- No access writes a result register (R66): commands complete in the sequencer's turn. -/
theorem hostAccess_results {a : Access} {s t : State} (h : hostAccess a s = .next t) : t.results = s.results := by
  rcases hostAccess_effect h with ⟨v, -, rfl⟩ | ⟨v, -, -, rfl⟩ | ⟨v, off, op, snap, -, -, -, -, rfl⟩ |
    ⟨-, ⟨v, i, -, -, -, rfl⟩ | ⟨v, e, -, -, -, rfl⟩ | ⟨v, r, -, -, -, rfl⟩ | rfl⟩
  · rfl
  · rfl
  · rfl
  · exact accept_results i s
  · rfl
  · rfl
  · rfl

/-! ### The step that serves an access (R61, R67) -/

theorem step_of_access {s : State} {a : Access} {rest : List Input} (hr : s.inReset = false)
    (hi : s.inputs = .access a :: rest) : step s = hostAccess a { s with inputs := rest } := by
  rw [step_of_cons hi]
  simp [agentTurn, hr]

theorem decodeTableWord_eq_some_iff {nbits w : Nat} {i : Instr} :
    decodeTableWord nbits w = some i ↔ decode (tableWord nbits w) = .ok i := by
  unfold decodeTableWord
  cases decode (tableWord nbits w) <;> simp

/-- A step that takes the `CMD` write of a legal word on an idle core runs its command (R160). -/
theorem step_of_commandAccess {s : State} {v : Word} {i : Instr} {rest : List Input} (hr : s.inReset = false)
    (hp : s.phase = .idle) (hi : s.inputs = commandAccess v :: rest) (hd : decode v = .ok i) :
    step s = exec i { s with inputs := rest } := by
  rw [step_of_access hr hi, hostAccess_cmd_of_idle v { s with inputs := rest } hp, issueCommand_ok _ hd]

/-! ### The obligations of the bus and of its accesses (R60 to R67) -/

/-- Settles O5: the value is the one at the offset, and only the host's log of reads changes. -/
theorem readsHaveNoSideEffects : Obligations.ReadsHaveNoSideEffects := by
  intro s off hw ha
  refine ⟨readOffset s off, hostAccess_read32 off s hw ha, readOffset_eq_zero s hw ha, ?_⟩
  rintro r rfl
  exact readOffset_offset s r

/-- Settles O6, from the one list of reasons for which an access is refused. -/
theorem busErrorExactlyOnRefusedAccesses : Obligations.BusErrorExactlyOnRefusedAccesses := fun s off width k =>
  ⟨(hostAccess_offset_fault_iff off width k s).symm,
    fun hw hoff ha => hostAccess_next s hw (windowOffset_offset_eq_some_iff.2 ⟨hoff, rfl⟩) ha⟩

/-- Settles O7: inside the window the address has the offset's window offset, outside it has none. -/
theorem hostAddressReachesItsOffset : Obligations.HostAddressReachesItsOffset := by
  refine fun s addr width k => ⟨?_, fun hout => ?_⟩
  · rintro off hoff rfl
    exact hostAccess_congr_target (windowOffset_address_inside hoff) width k s
  · exact (hostAccess_fault_iff _ s).2 (.inr (by simp [windowOffset_address_outside hout]))

/-- Settles O14: the dropped write is `overrun`, which changes `STATUS` alone, and in it bit 4. -/
theorem writesWhileBusyAreDroppedAndSetOverrun : Obligations.WritesWhileBusyAreDroppedAndSetOverrun := by
  intro s op snap off v hp hw ha
  refine ⟨fun hne => ⟨overrun s, hostAccess_write32_of_busy v hp hw ha hne, statusWord_overrun s, ?_, rfl⟩,
    hostAccess_write32_status v s, hostAccess_read32 off s hw ha⟩
  exact readOffset_eq_of_not_status fun _ hq => readReg_overrun_of_ne s hq

/-- Settles O46: of all that a step can do, only the host's access can set `OVERRUN`. -/
theorem overrunIsSetOnlyByAWriteWhileBusy : Obligations.OverrunIsSetOnlyByAWriteWhileBusy := by
  intro s t hstep hs ht
  have hne : t.status.overrun ≠ (afterTurn s).status.overrun := by simp [hs, ht]
  rcases step_cases hstep with ⟨rest, -, rfl⟩ | ⟨rest, -, rfl⟩ | ⟨-, rfl⟩ | ⟨hr, a, rest, hi, h⟩ |
    ⟨-, n, rest, -, rfl⟩ | ⟨-, -, h⟩
  · simp [Status.reset] at ht
  · rcases resetRelease_cases (afterTurn s) with ⟨-, he⟩ | ⟨-, he⟩
    · simp [he, Status.reset] at ht
    · simp [he] at hne
  · exact absurd rfl hne
  · obtain ⟨hp, v, off, hk, ho, hoff⟩ := hostAccess_sets_overrun h hs ht
    exact ⟨hp, hr, a, v, off, rest, hi, hk, ho, hoff⟩
  · simp at hne
  · exact absurd (sequencerTurn_overrun h) hne

/-- Settles O48: of all that a step can do, only reset and a completion write a result register. -/
theorem resultsChangeOnlyAtCompletionOrReset : Obligations.ResultsChangeOnlyAtCompletionOrReset := by
  intro s t hstep hne
  rcases step_cases hstep with ⟨rest, hi, -⟩ | ⟨rest, hi, rfl⟩ | ⟨-, rfl⟩ | ⟨-, a, rest, -, h⟩ |
    ⟨-, n, rest, -, rfl⟩ | ⟨-, -, h⟩
  · exact .inl ⟨rest, .inl hi⟩
  · rcases resetRelease_cases (afterTurn s) with ⟨hr, -⟩ | ⟨-, he⟩
    · exact .inl ⟨rest, .inr ⟨hi, hr⟩⟩
    · simp [he] at hne
  · exact absurd rfl hne
  · exact absurd (hostAccess_results h) hne
  · simp at hne
  · rcases sequencerTurn_cases h with ⟨-, rfl⟩ | ⟨op, snap, hp, rfl⟩
    · exact absurd rfl hne
    · obtain ⟨m, hst⟩ := completionOf_status op snap (afterTurn s)
      have hbusy : s.phase ≠ .idle := by simp [show s.phase = .busy op snap from hp]
      exact .inr ⟨hbusy, completionOf_phase op snap _, by rw [hst]; rfl, by rw [hst]; rfl⟩

/-- Settles O21: the turn is the `CMD` write of a word that decodes, and a fetch word is such a turn on an idle core. -/
theorem stepRunsTheDecodedCommand : Obligations.StepRunsTheDecodedCommand := by
  refine ⟨fun s v i rest hr hp hi hd => step_of_commandAccess hr hp hi hd, fun s w i hd => ?_⟩
  exact step_of_commandAccess (s := s.withFetchWord 32 w) rfl rfl rfl (decodeTableWord_eq_some_iff.1 hd)

/-- Settles O23: outside reset the turn of an access is that access. -/
theorem stepServesTheHostAccess : Obligations.StepServesTheHostAccess :=
  fun _ _ _ hr hi => step_of_access hr hi

end Sys2Proof.Machine

/-! SUPPORT. Command words (R80 to R83): the decoder reads the field `OP` and nothing else, and a word is its field `OP`
below 28 ignored bits. -/

namespace Sys2Proof

/-! ### The field `OP` of a word (R80) -/

theorem opField_toNat (v : Word) : (opField v).toNat = v.toNat % 16 := by
  simp [opField]

/-- A word is put together from its bits 31:4 and its field `OP`. -/
theorem join_opField (v : Word) :
    ((v.extractLsb' 4 28).setWidth 32 <<< 4) ||| (opField v).setWidth 32 = v := by
  apply BitVec.eq_of_getLsbD_eq
  intro k hk
  interval_cases k <;> simp [opField]

theorem opField_encode (i : Instr) (ignored : BitVec 28) : opField (encode i ignored) = opcode i :=
  Laws.Encoding.opField_join ignored (opcode i)

theorem opcode_eq_iff {i j : Instr} : opcode i = opcode j ↔ i = j := by
  cases i <;> cases j <;> decide

/-- A field `OP` is no command's exactly when it is `0x0` or `0x4`..`0xF` (R82). -/
theorem opField_ne_opcode_iff (v : Word) :
    (∀ i, opField v ≠ opcode i) ↔ v.toNat % 16 = 0 ∨ 4 ≤ v.toNat % 16 := by
  simp only [ne_eq, ← BitVec.toNat_inj, opField_toNat]
  constructor
  · intro h
    have h1 : v.toNat % 16 ≠ 1 := h .gen
    have h2 : v.toNat % 16 ≠ 2 := h .verify
    have h3 : v.toNat % 16 ≠ 3 := h .zeroize
    omega
  · intro h i
    cases i <;> simp only [opcode, BitVec.toNat_ofNat] <;> omega

/-! ### What the decoder answers (R81, R82) -/

/-- Everything the decoder can answer: the command whose opcode stands in `OP`, or a refusal that names `OP`. -/
theorem decode_cases (v : Word) :
    (∃ i, opField v = opcode i ∧ decode v = .ok i) ∨
      ((∀ i, opField v ≠ opcode i) ∧ decode v = .error (.illegalOp (opField v))) := by
  unfold decode
  split
  · next h => exact .inl ⟨.gen, h, rfl⟩
  · next h => exact .inl ⟨.verify, h, rfl⟩
  · next h => exact .inl ⟨.zeroize, h, rfl⟩
  · next h1 h2 h3 =>
    refine .inr ⟨fun i => ?_, rfl⟩
    cases i with
    | gen => exact h1
    | verify => exact h2
    | zeroize => exact h3

theorem decode_eq_ok_iff (v : Word) (i : Instr) : decode v = .ok i ↔ opField v = opcode i := by
  rcases decode_cases v with ⟨j, hj, hd⟩ | ⟨hne, hd⟩
  · simp [hd, hj, opcode_eq_iff]
  · simp [hd, hne i]

theorem decode_eq_ok_iff_mod (v : Word) (i : Instr) : decode v = .ok i ↔ v.toNat % 16 = (opcode i).toNat := by
  rw [decode_eq_ok_iff, ← BitVec.toNat_inj, opField_toNat]

theorem decode_eq_illegalOp_iff (v : Word) :
    decode v = .error (.illegalOp (opField v)) ↔ ∀ i, opField v ≠ opcode i := by
  rcases decode_cases v with ⟨j, hj, hd⟩ | ⟨hne, hd⟩
  · simp only [hd, reduceCtorEq, false_iff]
    exact fun hne => hne j hj
  · exact ⟨fun _ => hne, fun _ => hd⟩

theorem decode_encode (i : Instr) (ignored : BitVec 28) : decode (encode i ignored) = .ok i :=
  (decode_eq_ok_iff _ i).2 (opField_encode i ignored)

theorem eq_encode_of_decode {v : Word} {i : Instr} (h : decode v = .ok i) : v = encode i (v.extractLsb' 4 28) := by
  rw [encode, ← (decode_eq_ok_iff v i).1 h, join_opField]

/-! ### The obligations of the command words -/

namespace Machine

/-- Settles O19: the decoder answers by `OP` alone, and `OP` with the 28 ignored bits is the word. -/
theorem decodeAndEncodeAgree : Obligations.DecodeAndEncodeAgree :=
  ⟨decode_encode, fun _ _ => eq_encode_of_decode,
    fun v => ⟨decode_eq_ok_iff_mod v .gen, decode_eq_ok_iff_mod v .verify, decode_eq_ok_iff_mod v .zeroize⟩,
    fun v => (opField_ne_opcode_iff v).symm.trans (decode_eq_illegalOp_iff v).symm⟩

/-- Settles O20: fixed words, decoded by evaluation. -/
theorem commandWordsOfTheTable : Obligations.CommandWordsOfTheTable := by
  unfold Obligations.CommandWordsOfTheTable
  decide

end Machine

end Sys2Proof

/-! SUPPORT. Operands as the host assembles them (R84 to R86): the `CTRL` word from its fields, byte arrays packed in
registers, and register pairs. -/

namespace Sys2Proof.Machine

/-- The `CTRL` word of R85, assembled from its fields, is the word that `CTRL` reads with these fields (R23). -/
theorem assembledCtrl_eq_toWord (alg csrc ie : Bool) (digits : BitVec 4) (window : BitVec 8) :
    (BitVec.ofBool alg).setWidth 32 ||| (BitVec.ofBool csrc).setWidth 32 <<< 1 |||
        (BitVec.ofBool ie).setWidth 32 <<< 2 ||| digits.setWidth 32 <<< 4 ||| window.setWidth 32 <<< 8 =
      Ctrl.toWord ⟨HashAlg.ofBit alg, CounterSource.ofBit csrc, ie, digits, window⟩ := by
  simp only [Ctrl.toWord, bitField, HashAlg.bit_ofBit, CounterSource.bit_ofBit, BitVec.shiftLeft_zero]
  ac_rfl

/-- Byte `j` of register `i` of a packed byte array is byte `4i + j` of the array (R84). -/
theorem wordByte_packedWord (a : List Byte) (i : Nat) {j : Nat} (hj : j < 4) :
    wordByte (packedWord a i) j = a.getD (4 * i + j) 0#8 := by
  interval_cases j <;> simp [packedWord]

/-- Packing a whole number of registers loses no byte (R84). -/
theorem bytesOfWords_packed (a : List Byte) (n : Nat) (hl : a.length = 4 * n) :
    bytesOfWords ((List.range n).map (packedWord a)) = a := by
  have hlen : (bytesOfWords ((List.range n).map (packedWord a))).length = 4 * n := by simp
  exact bytes_ext (hlen.trans hl.symm) fun k hk => bytesOfWords_packed_getD a n k (hlen ▸ hk)

/-- A group of registers is the packing of its bytes (R84). -/
theorem packed_bytesOfWords (ws : List Word) : (List.range ws.length).map (packedWord (bytesOfWords ws)) = ws := by
  apply List.ext_getElem (by simp)
  intro i _ hi
  rw [List.getElem_map, List.getElem_range, packedWord_bytesOfWords ws i hi, List.getD_eq_getElem _ _ hi]

/-- Settles O16: the assembled word is the word of its fields, which a write gives back. -/
theorem ctrlWordAssembly : Obligations.CtrlWordAssembly := by
  refine ⟨by decide, by decide, fun alg csrc ie digits window => ?_⟩
  rw [assembledCtrl_eq_toWord]
  exact ⟨Ctrl.ofWord_toWord _, by rw [Ctrl.ofWord_toWord]⟩

/-- Settles O17: packing and unpacking undo each other, byte by byte and register by register. -/
theorem byteArrayPackingRoundTrips : Obligations.ByteArrayPackingRoundTrips :=
  ⟨fun a _ i _ _ _ hj => (wordByte_packedWord a i hj).symm, bytesOfWords_packed, packed_bytesOfWords,
    fun _ => rfl⟩

/-- While idle two registers written one after the other are both stored (R66). -/
theorem hostAccess_write32_pair_of_idle {s : State} (hp : s.phase = .idle) (q r : Reg) (v w : Word)
    (hq : q ≠ .status ∧ q ≠ .cmd) (hr : r ≠ .status ∧ r ≠ .cmd) :
    hostAccess (write32 q.offset v) s = .next (writeReg s q v) ∧
      hostAccess (write32 r.offset w) (writeReg s q v) = .next (writeReg (writeReg s q v) r w) :=
  ⟨hostAccess_write32_reg_of_idle q v hp hq.1 hq.2, hostAccess_write32_reg_of_idle r w hp hr.1 hr.2⟩

/-- Settles O10: a pair's value is `HI * 2^32 + LO` whoever wrote its halves, and a narrow operand keeps the low bits of
the word written. -/
theorem wideOperandsAreTheirHalves : Obligations.WideOperandsAreTheirHalves := by
  intro s hi lo hp
  obtain ⟨hcHi, hcLo⟩ := hostAccess_write32_pair_of_idle hp .counterHi .counterLo hi lo (by decide) (by decide)
  obtain ⟨htHi, htLo⟩ := hostAccess_write32_pair_of_idle hp .timeHi .timeLo hi lo (by decide) (by decide)
  have hkeylen := hostAccess_write32_reg_of_idle .keylen lo hp (by decide) (by decide)
  have hcandlen := hostAccess_write32_reg_of_idle .candlen lo hp (by decide) (by decide)
  have hperiod := hostAccess_write32_reg_of_idle .period lo hp (by decide) (by decide)
  refine ⟨⟨_, _, hcHi, hcLo, dwordOf_toNat hi lo, rfl⟩, ⟨_, _, htHi, htLo, dwordOf_toNat hi lo, rfl⟩,
    dwordOf_toNat _ _, dwordOf_toNat _ _, dwordOf_toNat _ _, ⟨_, hkeylen, ?_⟩, ⟨_, hcandlen, ?_⟩, ⟨_, hperiod, rfl⟩⟩
  · simp [OperandRegs.write]
  · simp [OperandRegs.write]

end Sys2Proof.Machine

/-! SUPPORT. The `POLL` loop (R88) with the schedule inside it (log 9): its reads while a command is pending, and its
end once the sequencer has taken its turn. -/

namespace Sys2Proof.Machine

/-- A completion neither reads nor changes the turns still to come and the values already read (log 1, log 8). -/
theorem completionOf_schedule (op : Instr) (snap : OperandRegs) (s : State) (turns : List Input) (log : List Word) :
    completionOf op snap { s with inputs := turns, readLog := log } =
      { completionOf op snap s with inputs := turns, readLog := log } := by
  cases op <;> rfl

/-- `BUSY` reads 0 exactly while no command is pending (R31, R46). -/
theorem readReg_status_busy (s : State) : (readReg s .status).getLsbD 0 = s.phase.isBusy :=
  statusWord_getLsbD s 0 (by decide)

/-! ### One turn of the loop -/

section Turns

variable {s : State} {op : Instr} {snap : OperandRegs} {n : Nat} {rest : List Input} (hr : s.inReset = false)
include hr

/-- A turn that still is to see `BUSY = 1` reads `STATUS` and leaves one such turn fewer. -/
theorem step_poll_succ_of_busy (hp : s.phase = .busy op snap) (hi : s.inputs = .poll (n + 1) :: rest) :
    step s = .next { s with inputs := .poll n :: rest, readLog := readReg s .status :: s.readLog } := by
  cases s
  subst hr hp hi
  rfl

/-- After its last read of `BUSY = 1` the loop waits for the sequencer. -/
theorem step_poll_zero_of_busy (hp : s.phase = .busy op snap) (hi : s.inputs = .poll 0 :: rest) :
    step s = .next { s with inputs := .sequencer :: .poll 0 :: rest } := by
  cases s
  subst hr hp hi
  rfl

/-- The read that sees `BUSY = 0` ends the loop. -/
theorem step_poll_of_idle (hp : s.phase = .idle) (hi : s.inputs = .poll n :: rest) :
    step s = .next { s with inputs := rest, readLog := readReg s .status :: s.readLog } := by
  cases s
  subst hr hp hi
  rfl

/-- The sequencer's listed turn completes the pending command (R162). -/
theorem step_sequencer_of_busy (hp : s.phase = .busy op snap) (hi : s.inputs = .sequencer :: rest) :
    step s = .next (completionOf op snap { s with inputs := rest }) := by
  rw [step_of_cons hi, agentTurn, if_neg (by simp [hr])]
  exact sequencerTurn_of_busy hp

/-! ### The whole loop -/

/-- The first `n` turns of the loop read `STATUS` while the command stays pending. -/
theorem runSteps_poll_reads (hp : s.phase = .busy op snap) (hi : s.inputs = .poll n :: rest) :
    runSteps n s =
      .next { s with inputs := .poll 0 :: rest, readLog := List.replicate n (readReg s .status) ++ s.readLog } := by
  induction n generalizing s with
  | zero =>
    cases s
    subst hi
    rfl
  | succ n ih =>
    rw [runSteps_succ n (step_poll_succ_of_busy hr hp hi), List.replicate_succ', List.append_assoc]
    exact ih hr hp rfl

/-- The last three turns of the loop: it finds `BUSY = 1`, the sequencer completes the command, and the last read is the
`STATUS` after completion. -/
theorem runSteps_poll_end (hp : s.phase = .busy op snap) (hi : s.inputs = .poll 0 :: rest) :
    runSteps 3 s = .next { completionOf op snap s with
      inputs := rest, readLog := readReg (completionOf op snap s) .status :: s.readLog } := by
  have hdone := completionOf_schedule op snap s (.poll 0 :: rest) s.readLog
  have hlast := step_poll_of_idle (s := completionOf op snap { s with inputs := .poll 0 :: rest }) (n := 0)
    (rest := rest) (by simpa using hr) (by simp) (by simp)
  calc runSteps 3 s
    _ = runSteps 2 { s with inputs := .sequencer :: .poll 0 :: rest } :=
      runSteps_succ 2 (step_poll_zero_of_busy hr hp hi)
    _ = runSteps 1 (completionOf op snap { s with inputs := .poll 0 :: rest }) :=
      runSteps_succ 1 (step_sequencer_of_busy hr hp rfl)
    _ = .next _ := runSteps_succ 0 hlast
    _ = _ := by rw [hdone]; rfl

end Turns

/-- Settles O50: `n` reads while the command is pending, then the three turns that end the loop. -/
theorem pollEndsWithBusyZero : Obligations.PollEndsWithBusyZero := by
  intro s op snap n rest hr hp hi
  refine ⟨_, completionOf op snap { s with inputs := rest }, ?_, exec_of_busy op hp, rfl, ?_⟩
  · rw [runSteps_add n 3 (runSteps_poll_reads hr hp hi)]
    refine (runSteps_poll_end (s := { s with
      inputs := .poll 0 :: rest
      readLog := List.replicate n (readReg s .status) ++ s.readLog }) hr hp rfl).trans ?_
    cases op <;> rfl
  · rw [readReg_status_busy, completionOf_phase]
    rfl

end Sys2Proof.Machine

/-! SUPPORT. The datapath of HMAC (R101 to R120): the bytes of the counter message, the blocks of a padded message, the
padded key, and the standard examples. -/

namespace Sys2Proof.Machine

/-! ### The counter message (R101) -/

/-- Byte `j` of the high half of a pair is byte `j` of the 64-bit value (R9). -/
theorem wordByte_hiWord (c : Dword) {j : Nat} (hj : j < 4) :
    wordByte (hiWord c) j = c.extractLsb' (56 - 8 * j) 8 := by
  apply BitVec.eq_of_getLsbD_eq
  intro i hi
  simp [wordByte, hiWord, hi, show 24 - 8 * j + i < 32 by omega,
    show 32 + (24 - 8 * j + i) = 56 - 8 * j + i by omega]

/-- Byte `j` of the low half of a pair is byte `4 + j` of the 64-bit value (R9). -/
theorem wordByte_loWord (c : Dword) (j : Nat) :
    wordByte (loWord c) j = c.extractLsb' (24 - 8 * j) 8 := by
  apply BitVec.eq_of_getLsbD_eq
  intro i hi
  simp [wordByte, loWord, hi]

theorem bytesOfWord_getD (w : Word) {j : Nat} (hj : j < 4) : (bytesOfWord w).getD j 0#8 = wordByte w j := by
  interval_cases j <;> rfl

/-- Byte `k` of `BE64(c)` is `c[63-8k : 56-8k]` (R9). -/
theorem be64_getD (c : Dword) {k : Nat} (hk : k < 8) : (be64 c).getD k 0#8 = c.extractLsb' (56 - 8 * k) 8 := by
  rcases Nat.lt_or_ge k 4 with hlt | hge
  · rw [be64, List.getD_append _ _ _ _ hlt, bytesOfWord_getD _ hlt, wordByte_hiWord c hlt]
  · have hlo : k - 4 < 4 := by omega
    rw [be64, List.getD_append_right _ _ _ _ hge, bytesOfWord_length, bytesOfWord_getD _ hlo, wordByte_loWord,
      show 24 - 8 * (k - 4) = 56 - 8 * k by omega]

/-- Reading on over the four bytes of a word appends its value (R84). -/
theorem foldl_bytesOfWord (w : Word) (n : Nat) :
    (bytesOfWord w).foldl (fun n b => 256 * n + b.toNat) n = n * 2 ^ 32 + w.toNat := by
  have hw := wordOfBytes_toNat (wordByte w 0) (wordByte w 1) (wordByte w 2) (wordByte w 3)
  rw [wordOfBytes_wordByte] at hw
  simp only [bytesOfWord, List.foldl_cons, List.foldl_nil]
  omega

/-- `BE64(c)` read as a big-endian number is `c` (R9). -/
theorem foldl_be64 (c : Dword) : (be64 c).foldl (fun n b => 256 * n + b.toNat) 0 = c.toNat := by
  rw [be64, List.foldl_append, foldl_bytesOfWord, foldl_bytesOfWord, Nat.zero_mul, Nat.zero_add, ← dwordOf_toNat,
    dwordOf_hiWord_loWord]

/-- Settles O33: the message is `BE64(c)`, whose bytes are the two halves' bytes. -/
theorem counterMessageIsBigEndian : Obligations.CounterMessageIsBigEndian :=
  fun c => ⟨be64_length c, fun _ hk => be64_getD c hk, foldl_be64 c⟩

/-! ### Padding and blocks (R102) -/

/-- No smaller number of zeros than that of R102 completes the block. -/
theorem padZeros_le {n y : Nat} (h : (n + 1 + y) % 64 = 56) : padZeros n ≤ y := by
  unfold padZeros
  omega

theorem pad_length_mod (m : List Byte) : (pad m).length % 64 = 0 := by
  have hz := padZeros_spec m.length
  rw [pad_length]
  omega

@[simp] theorem blocksOf_length (n : Nat) (bytes : List Byte) : (blocksOf n bytes).length = n := by
  induction n generalizing bytes with
  | zero => rfl
  | succ n ih => rw [blocksOf, List.length_cons, ih]

@[simp] theorem messageBlocks_length (m : List Byte) : (messageBlocks m).length = (pad m).length / 64 :=
  blocksOf_length _ _

/-- Block `b` is made of the 64 bytes from byte `64b` on (R102). -/
theorem blocksOf_getD {n b : Nat} (bytes : List Byte) (hb : b < n) :
    (blocksOf n bytes).getD b [] = blockWords ((bytes.drop (64 * b)).take 64) := by
  induction n generalizing b bytes with
  | zero => omega
  | succ n ih =>
    cases b with
    | zero => rfl
    | succ b =>
      rw [blocksOf, List.getD_cons_succ, ih _ (by omega), List.drop_drop, show 64 + 64 * b = 64 * (b + 1) by omega]

/-- `Wt = {M[4t], M[4t+1], M[4t+2], M[4t+3]}` (R102). -/
theorem blockWords_getD (block : List Byte) {t : Nat} (ht : t < 16) :
    (blockWords block).getD t 0#32 = packedWord block t := by
  rw [blockWords, List.getD_eq_getElem _ _ (by simpa using ht), List.getElem_map, List.getElem_range]

/-- Byte `k` of the `n` bytes from byte `i` on is byte `i + k` of the whole. -/
theorem take_drop_getD (bytes : List Byte) (i : Nat) {n k : Nat} (hk : k < n) :
    ((bytes.drop i).take n).getD k 0#8 = bytes.getD (i + k) 0#8 := by
  simp [List.getD_eq_getElem?_getD, List.getElem?_take_of_lt hk]

/-- Word `t` of block `b` is made of the four bytes from byte `64b + 4t` on (R102). -/
theorem messageBlocks_getD_getD (m : List Byte) {b t : Nat} (hb : b < (messageBlocks m).length) (ht : t < 16) :
    ((messageBlocks m).getD b []).getD t 0#32 =
      wordOfBytes ((pad m).getD (64 * b + 4 * t) 0#8) ((pad m).getD (64 * b + 4 * t + 1) 0#8)
        ((pad m).getD (64 * b + 4 * t + 2) 0#8) ((pad m).getD (64 * b + 4 * t + 3) 0#8) := by
  rw [messageBlocks_length] at hb
  rw [messageBlocks, blocksOf_getD _ hb, blockWords_getD _ ht, packedWord, take_drop_getD _ _ (by omega),
    take_drop_getD _ _ (by omega), take_drop_getD _ _ (by omega), take_drop_getD _ _ (by omega)]
  rfl

/-- The messages of this core, with their block of key, have two blocks (R102). -/
theorem messageBlocks_length_of_core {m : List Byte} (h : m.length = 72 ∨ m.length = 84 ∨ m.length = 96) :
    (messageBlocks m).length = 2 := by
  rw [messageBlocks_length, pad_length]
  rcases h with h | h | h <;> rw [h] <;> rfl

/-- Settles O34: `z` is `padZeros`, and the padded length is a multiple of 64. -/
theorem paddingIsWholeBlocks : Obligations.PaddingIsWholeBlocks := by
  refine ⟨fun m _ => ⟨padZeros m.length, rfl, padZeros_spec _, fun _ => padZeros_le, pad_length_mod m⟩,
    fun m => ⟨?_, fun _ _ => messageBlocks_getD_getD m⟩, fun _ => messageBlocks_length_of_core⟩
  rw [messageBlocks_length]
  exact Nat.mul_div_cancel' (Nat.dvd_of_mod_eq_zero (pad_length_mod m))

/-! ### The padded key (R118) -/

/-- Trailing zero bytes of a key that still fits the block are part of its padding (R118). -/
theorem paddedKey_append_zeros {k : List Byte} {n : Nat} (h : k.length + n ≤ 64) :
    paddedKey (k ++ List.replicate n 0x00#8) = paddedKey k := by
  have hfill : n + (Config.blockBytes - (k.length + n)) = Config.blockBytes - k.length := by
    simp only [Config.blockBytes]
    omega
  rw [paddedKey, List.length_append, List.length_replicate, List.append_assoc, List.replicate_append_replicate, hfill,
    paddedKey]

/-- Settles O35: HMAC uses the key only as the padded key, which is the same. -/
theorem trailingZeroKeyBytesDoNotMatter : Obligations.TrailingZeroKeyBytesDoNotMatter := by
  intro alg k m n _ h
  rw [hmac, paddedKey_append_zeros h, hmac]

/-! ### The standard examples (R108, R117, R120) -/

/-- `SHA1("abc")` (R108). -/
theorem sha1_abc : sha1 [0x61#8, 0x62#8, 0x63#8] =
    bytesOfWords [0xa9993e36#32, 0x4706816a#32, 0xba3e2571#32, 0x7850c26c#32, 0x9cd0d89d#32] := by
  decide +kernel

/-- `SHA256("abc")` (R117). -/
theorem sha256_abc : sha256 [0x61#8, 0x62#8, 0x63#8] =
    bytesOfWords [0xba7816bf#32, 0x8f01cfea#32, 0x414140de#32, 0x5dae2223#32, 0xb00361a3#32, 0x96177a9c#32,
      0xb410ff61#32, 0xf20015ad#32] := by
  decide +kernel

/-- Counter 0 of RFC 4226, key "12345678901234567890" (R170's example). -/
theorem hmac_sha1_counter_zero :
    hmac .sha1 (bytesOfWords [0x31323334#32, 0x35363738#32, 0x39303132#32, 0x33343536#32, 0x37383930#32]) (be64 0#64) =
      bytesOfWords [0xcc93cf18#32, 0x508d9493#32, 0x4c64b65d#32, 0x8ba7667f#32, 0xb7cde4b0#32] := by
  decide +kernel

/-- The example of X40.1e, counter 0 with a key of 32 bytes, two blocks in each hash (R116). -/
theorem hmac_sha256_counter_zero :
    hmac .sha256 (bytesOfWords [0x31323334#32, 0x35363738#32, 0x39303132#32, 0x33343536#32, 0x37383930#32,
        0x31323334#32, 0x35363738#32, 0x39303132#32]) (be64 0#64) =
      bytesOfWords [0xc79f479a#32, 0xbc3c5672#32, 0x24e3f8c8#32, 0xe46b2631#32, 0xd5b3f319#32, 0xa06a1e47#32,
        0x2cbdbee3#32, 0xaa479848#32] := by
  decide +kernel

/-- Settles O36: each example is computed. -/
theorem standardHashExamples : Obligations.StandardHashExamples :=
  ⟨sha1_abc, sha256_abc, hmac_sha1_counter_zero, hmac_sha256_counter_zero⟩

end Sys2Proof.Machine

/-! SUPPORT. The pure functions around HMAC (R141 to R147): dynamic truncation, the digits of a code as a numeral, and
the time step with the seconds to the next boundary. -/

namespace Sys2Proof.Machine

/-! ### Dynamic truncation (R142, R143) -/

/-- The last byte that truncation selects lies inside a digest of either length (R142). -/
theorem truncOffset_add_three_lt (alg : HashAlg) (digest : List Byte) :
    truncOffset digest + 3 < digestLength alg := by
  have hoff := truncOffset_lt digest
  rcases digestLength_cases alg with h | h <;> omega

/-- Clearing the top bit of the first of four bytes is reducing their big-endian value modulo `2^31` (R143). -/
theorem bigEndian_mod_two_pow_31 (a b c d : Byte) :
    (a.toNat * 2 ^ 24 + b.toNat * 2 ^ 16 + c.toNat * 2 ^ 8 + d.toNat) % 2 ^ 31 =
      a.toNat % 128 * 2 ^ 24 + b.toNat * 2 ^ 16 + c.toNat * 2 ^ 8 + d.toNat := by
  omega

/-- Settles O37: the two masks are remainders, and a nibble plus 3 is below either digest length. -/
theorem dynamicTruncation : Obligations.DynamicTruncation := by
  intro alg digest hlen
  refine ⟨?_, truncOffset_add_three_lt alg digest, ?_⟩
  · rw [truncOffset, and_nibble, hlen]
  · rw [truncated_toNat, bigEndian_mod_two_pow_31]

/-! ### The code string as a decimal numeral (R145, R146) -/

/-- The ASCII character of a decimal digit (R145) does not overflow its byte. -/
theorem digitChar_toNat (n : Nat) : (BitVec.ofNat 8 (0x30 + n % 10)).toNat = 0x30 + n % 10 := by
  rw [BitVec.toNat_ofNat]
  omega

/-- Every character of a code string is an ASCII digit (R146). -/
theorem codeString_isDigit {d code : Nat} {b : Byte} (hb : b ∈ codeString d code) :
    0x30 ≤ b.toNat ∧ b.toNat ≤ 0x39 := by
  obtain ⟨k, -, rfl⟩ := List.mem_map.mp hb
  rw [digitChar_toNat]
  omega

/-- A code string of `d + 1` characters is that of `code / 10` in `d` characters, then the last digit (R145). -/
theorem codeString_succ (d code : Nat) :
    codeString (d + 1) code = codeString d (code / 10) ++ [BitVec.ofNat 8 (0x30 + code % 10)] := by
  have hdigit : ∀ k ∈ List.range d, code / 10 ^ (d + 1 - 1 - k) = code / 10 / 10 ^ (d - 1 - k) := by
    intro k hk
    have hexp : d + 1 - 1 - k = d - 1 - k + 1 := by
      have := List.mem_range.mp hk
      omega
    rw [hexp, Nat.pow_succ', Nat.div_div_eq_div_mul]
  rw [codeString, List.range_succ, List.map_append, codeString]
  congr 1
  · exact List.map_congr_left fun k hk => by rw [hdigit k hk]
  · simp

/-- Read as a decimal numeral, a code string is its code (R146). -/
theorem codeString_foldl (d code : Nat) (h : code < 10 ^ d) :
    (codeString d code).foldl (fun n b => 10 * n + (b.toNat - 0x30)) 0 = code := by
  induction d generalizing code with
  | zero =>
    have hzero : code = 0 := by simpa using h
    rw [hzero]
    rfl
  | succ d ih =>
    have hlead : code / 10 < 10 ^ d := Nat.div_lt_of_lt_mul (by rwa [← Nat.pow_succ'])
    rw [codeString_succ, List.foldl_append, ih _ hlead, List.foldl_cons, List.foldl_nil, digitChar_toNat]
    omega

/-- Settles O38, by induction on the number of digits. -/
theorem codeStringIsTheDecimalNumeral : Obligations.CodeStringIsTheDecimalNumeral :=
  fun d code h => ⟨codeString_length d code, fun _ => codeString_isDigit, codeString_foldl d code h⟩

/-! ### The time step and the seconds remaining (R141, R147) -/

/-- The time step is at most the time, so it fits 64 bits (R141). -/
theorem timeStep_toNat (t : Dword) (p : Word) : (timeStep t p).toNat = t.toNat / p.toNat := by
  rw [timeStep, BitVec.toNat_ofNat]
  exact Nat.mod_eq_of_lt (Nat.lt_of_le_of_lt (Nat.div_le_self _ _) t.isLt)

/-- The seconds remaining are at most the period, so they fit 32 bits (R147). -/
theorem secondsRemaining_toNat (t : Dword) (p : Word) :
    (secondsRemaining t p).toNat = p.toNat - t.toNat % p.toNat := by
  rw [secondsRemaining, BitVec.toNat_ofNat]
  exact Nat.mod_eq_of_lt (Nat.lt_of_le_of_lt (Nat.sub_le _ _) p.isLt)

/-- The rest of the period completes it: `T` plus `P - T mod P` is the next multiple of `P`. -/
theorem add_rest_eq_next_multiple (t : Nat) {p : Nat} (hp : 0 < p) : t + (p - t % p) = (t / p + 1) * p := by
  have hmod : t % p < p := Nat.mod_lt t hp
  have hdiv : t / p * p + t % p = t := Nat.div_add_mod' t p
  rw [Nat.add_mul, Nat.one_mul]
  omega

/-- Settles O39: neither value overflows its register, and `T mod P` lies below `P`. -/
theorem timeStepAndSecondsRemaining : Obligations.TimeStepAndSecondsRemaining := by
  intro t p hp
  have hpos : 0 < p.toNat := Nat.pos_of_ne_zero fun h => hp (BitVec.eq_of_toNat_eq h)
  have hmod : t.toNat % p.toNat < p.toNat := Nat.mod_lt _ hpos
  rw [timeStep_toNat, secondsRemaining_toNat]
  refine ⟨rfl, by omega, by omega, fun hboundary => ?_, add_rest_eq_next_multiple _ hpos⟩
  apply BitVec.eq_of_toNat_eq
  rw [secondsRemaining_toNat, hboundary, Nat.sub_zero]

end Sys2Proof.Machine

/-! SUPPORT. The commands (R160 to R180): acceptance, what each completion writes and leaves, and the code of a
candidate over the window. -/

namespace Sys2Proof.Machine

/-! ### What the host reads of a register but `STATUS` -/

/-- Only `STATUS` reads anything besides the operand and the result registers (R20 to R44). -/
theorem readReg_congr {s t : State} {r : Reg} (ho : t.operands = s.operands) (hres : t.results = s.results)
    (hne : r ≠ .status) : readReg t r = readReg s r := by
  cases r with
  | status => exact absurd rfl hne
  | _ => simp only [readReg, ho, hres]

/-! ### Acceptance (R160, R161, R180) -/

theorem accept_of_check_none {i : Instr} {s : State} (hc : commandCheck i s.operands = none) :
    accept i s = begin i s := by
  simp [accept, hc]

/-- An accepted command takes its snapshot, and the host sees only `STATUS` change (R160, R161). -/
theorem exec_accepted {i : Instr} {s : State} (hp : s.phase = .idle) (hc : commandCheck i s.operands = none) :
    ∃ t, exec i s = .next t ∧
      readReg t .status = (readReg s .status &&& 0x38#32) ||| 1#32 ∧
      (∀ off, off ≠ 0x10 → off % 4 = 0 → readOffset t off = readOffset s off) ∧
      t = { s with
        phase := .busy i s.operands
        status := { s.status with done := false, err := false, errcode := .none } } := by
  refine ⟨begin i s, ?_, readReg_begin_status i s, ?_, rfl⟩
  · rw [exec_of_idle i s hp, accept_of_check_none hc]
  · exact readOffset_eq_of_not_status fun _ hq => readReg_congr rfl rfl hq

/-- Settles O24: the premises are what the checks of GEN and VERIFY ask. -/
theorem legalCommandIsAccepted : Obligations.LegalCommandIsAccepted := by
  intro s i hp hi hk1 hk64 hd5 hd9 hperiod
  have hcheck : s.operands.check = none := s.operands.check_eq_none_iff.2 ⟨hk1, hk64, hd5, hd9, hperiod⟩
  apply exec_accepted hp
  rcases hi with rfl | rfl <;> exact hcheck

/-- Settles O25: ZEROIZE has no check that could fail. -/
theorem zeroizeIsAlwaysAccepted : Obligations.ZeroizeIsAlwaysAccepted :=
  fun _ hp => exec_accepted hp rfl

/-! ### GEN's registers (R170) -/

/-- A register of a packed byte array that lies past its end is 0 (R39, R84). -/
theorem packedWord_of_length_le {bs : List Byte} {i : Nat} (h : bs.length ≤ 4 * i) : packedWord bs i = 0#32 := by
  have hpast (j : Nat) : bs.getD (4 * i + j) 0#8 = 0#8 := List.getD_eq_default _ _ (by omega)
  rw [packedWord, hpast 1, hpast 2, hpast 3, show 4 * i = 4 * i + 0 from rfl, hpast 0]
  rfl

/-- The offset of truncation for the digest of a command (R142). -/
theorem truncOffset_hmacAt (o : OperandRegs) (c : Dword) :
    truncOffset (o.hmacAt c) = ((o.hmacAt c).getD (digestLength o.ctrl.alg - 1) 0#8).toNat % 16 := by
  rw [truncOffset, and_nibble, hmacAt_length]

/-- Byte `k` of GEN's `CODEBYTES`: digit `k` of `CODE`, then `0x00` (R43, R145). -/
theorem genResults_codeBytes_getD (o : OperandRegs) (h : o.digits ≤ 9) (k : Nat) :
    (genResults o).codeBytes.getD k 0#8 =
      if k < o.digits then
        BitVec.ofNat 8 (0x30 + (genResults o).code.toNat / 10 ^ (o.digits - 1 - k) % 10)
      else 0#8 := by
  have hcode : (genResults o).code.toNat = o.codeAt o.baseCounter := genResults_code o h
  rw [genResults_codeBytes o h, codeBuffer_getD, hcode]
  split_ifs with hk
  · exact codeString_getD _ _ k hk
  · rfl

/-- GEN's `REMAIN`: the seconds of R147 with `CSRC = 1`, otherwise 0. -/
theorem genResults_remain_toNat (o : OperandRegs) :
    (genResults o).remain.toNat = match o.ctrl.csrc with
      | .counter => 0
      | .time => o.period.toNat - o.time.toNat % o.period.toNat := by
  rw [genResults_remain]
  cases o.ctrl.csrc with
  | counter => rfl
  | time => exact secondsRemaining_toNat _ _

/-- Settles O27, register by register. -/
theorem genWritesItsResults : Obligations.GenWritesItsResults := by
  intro s snap hp ⟨_, _, _, hd9, _⟩
  refine ⟨_, exec_gen_of_busy hp, ?_⟩
  intro d c0 digest len off
  have hc0 : c0 = snap.baseCounter := (baseCounter_eq snap).symm
  have hdigest : digest = snap.hmacAt snap.baseCounter := congrArg snap.hmacAt hc0
  have hlen : digest.length = len := hmac_length _ _ _
  refine ⟨hlen, fun i => ?_, ?_, genResults_code snap hd9, fun k _ => genResults_codeBytes_getD snap hd9 k,
    (genResults_lastctr snap).trans hc0.symm, genResults_remain_toNat snap, rfl, rfl⟩
  · have hword : (genResults snap).digest[i.val] = packedWord digest i.val := by
      rw [hdigest]
      exact genResults_digest_getElem snap i.val i.isLt
    refine hword.trans ?_
    split_ifs with hi
    · rfl
    · exact packedWord_of_length_le (by omega)
  · have hoff : truncOffset digest = off := by
      rw [hdigest, truncOffset_hmacAt, ← hdigest]
    have htrunc : (genResults snap).trunc = truncated digest := by
      rw [hdigest, genResults_trunc]
    refine (congrArg BitVec.toNat htrunc).trans ?_
    rw [truncated_toNat, hoff]

/-! ### The candidate over the window (R172 to R175) -/

/-- `EQ` of the code string at counter `c`, with R144 and R145 written out. -/
theorem candidateEquals_codeStringAt_iff (o : OperandRegs) (c : Dword) :
    o.candidateEquals (o.codeStringAt c) = true ↔
      o.candlen.toNat = o.digits ∧ ∀ k, k < o.digits → o.candBytes.getD k 0#8 =
        BitVec.ofNat 8
          (0x30 + (truncated (o.hmacAt c)).toNat % 10 ^ o.digits / 10 ^ (o.digits - 1 - k) % 10) := by
  rw [candidateEquals_iff]
  refine and_congr_right fun _ => forall₂_congr fun k hk => ?_
  rw [OperandRegs.codeStringAt, codeString_getD _ _ k hk]
  rfl

/-- `EQ` of the code string at counter `c`, as an equation of strings (R173); the digits fit the 12 bytes. -/
theorem candidateEquals_codeStringAt_iff_take (o : OperandRegs) (c : Dword) (hd : o.digits ≤ 12) :
    o.candidateEquals (o.codeStringAt c) = true ↔
      o.candlen.toNat = o.digits ∧ o.candBytes.take o.digits = o.codeStringAt c := by
  have hlen : (o.candBytes.take o.digits).length = o.digits := by simpa using hd
  have hslen : (o.codeStringAt c).length = o.digits := codeString_length _ _
  have htake (k : Nat) (hk : k < o.digits) :
      (o.candBytes.take o.digits).getD k 0#8 = o.candBytes.getD k 0#8 := by
    simpa using take_drop_getD o.candBytes 0 hk
  rw [candidateEquals_iff]
  refine and_congr_right fun _ => ⟨fun h => ?_, fun h k hk => ?_⟩
  · refine bytes_ext (hlen.trans hslen.symm) fun k hk => ?_
    rw [hlen] at hk
    rw [htake k hk, h k hk]
  · rw [← htake k hk, h]

/-- Settles O28: VERIFY's search, with each counter of the window named by its value. -/
theorem verifyMatchesExactlyTheWindow : Obligations.VerifyMatchesExactlyTheWindow := by
  intro s snap hp _
  refine ⟨_, exec_verify_of_busy hp, ?_⟩
  intro d t0
  have ht0 : t0 = snap.baseCounter := (baseCounter_eq snap).symm
  refine ⟨?_, (verifyResults_lastctr snap _).trans ht0.symm, rfl⟩
  refine (verifies_iff snap).trans (exists_congr fun i => ?_)
  constructor
  · rintro ⟨hlo, hhi, heq⟩
    refine ⟨windowCounter t0 i, hlo, hhi, (windowCounter_iff t0 i _).1 rfl, ?_⟩
    rw [ht0]
    exact (candidateEquals_codeStringAt_iff snap _).1 heq
  · rintro ⟨c, hlo, hhi, hc, heq⟩
    obtain rfl : c = windowCounter snap.baseCounter i := by rw [← ht0]; exact (windowCounter_iff t0 i c).2 hc
    exact ⟨hlo, hhi, (candidateEquals_codeStringAt_iff snap _).2 heq⟩

/-- Settles O32: `MATCH` is VERIFY's search, and `EQ` is equality of strings. -/
theorem verifyAcceptsCodesOfTheWindow : Obligations.VerifyAcceptsCodesOfTheWindow := by
  intro s t snap hp ⟨_, _, _, hd9, _⟩ hexec
  rw [exec_verify_of_busy hp] at hexec
  obtain rfl := Host.Outcome.next.inj hexec
  have heq (c : Dword) := candidateEquals_codeStringAt_iff_take snap c (by omega)
  refine ⟨fun i hlo hhi hcandlen htake => ?_, fun hmatch => ?_⟩
  · exact (verifies_iff snap).2 ⟨i, hlo, hhi, (heq _).2 ⟨hcandlen, htake⟩⟩
  · obtain ⟨i, hlo, hhi, h⟩ := (verifies_iff snap).1 hmatch
    obtain ⟨hcandlen, htake⟩ := (heq _).1 h
    exact ⟨i, hlo, hhi, by rw [hcandlen, htake]⟩

/-! ### ZEROIZE (R180) -/

theorem bytesOfWords_replicate_zero (n : Nat) :
    bytesOfWords (List.replicate n 0#32) = List.replicate (4 * n) 0#8 := by
  induction n with
  | zero => rfl
  | succ n ih =>
    rw [List.replicate_succ, bytesOfWords_cons, ih, Nat.mul_succ, Nat.add_comm, List.replicate_add]
    rfl

/-- Without a key GEN and VERIFY fail with `BAD_KEYLEN` (R222). -/
theorem check_zeroizeOperands (o : OperandRegs) : (zeroizeOperands o).check = some .badKeylen := by
  simp [OperandRegs.check, zeroizeOperands]

/-- A command that fails a check stays idle with the code of that check (R221). -/
theorem exec_failed {i : Instr} {s : State} {code : ErrCode} (hp : s.phase = .idle)
    (hc : commandCheck i s.operands = some code) : exec i s = .next (raiseError code s) := by
  rw [exec_of_idle i s hp]
  simp [accept, hc]

/-- Every result register is 0 after ZEROIZE (R180). -/
theorem readReg_of_results_zero {t : State} (hres : t.results = ResultRegs.zero) {r : Reg}
    (hr : r = .lastctrHi ∨ r = .lastctrLo ∨ r = .trunc ∨ r = .code ∨ r = .remain ∨
      (∃ i, r = .codeAscii i) ∨ ∃ i, r = .digest i) : readReg t r = 0#32 := by
  rcases hr with rfl | rfl | rfl | rfl | rfl | ⟨i, rfl⟩ | ⟨i, rfl⟩ <;> simp [readReg, hres, ResultRegs.zero]

/-- No completion writes `CTRL`, `PERIOD`, `COUNTER` or `TIME` (R170, R174, R180). -/
theorem readReg_completionOf_of_kept (i : Instr) (snap : OperandRegs) (s : State) {r : Reg}
    (hr : r = .id ∨ r = .version ∨ r = .ctrl ∨ r = .cmd ∨ r = .period ∨ r = .counterHi ∨ r = .counterLo ∨
      r = .timeHi ∨ r = .timeLo) : readReg (completionOf i snap s) r = readReg s r := by
  rcases hr with rfl | rfl | rfl | rfl | rfl | rfl | rfl | rfl | rfl <;> cases i <;> rfl

/-- Settles O29: the registers ZEROIZE writes are replicated zeros, and a key length of 0 is refused. -/
theorem zeroizeErasesKeyCandidateAndResults : Obligations.ZeroizeErasesKeyCandidateAndResults := by
  intro s snap hp
  refine ⟨_, exec_of_busy .zeroize hp, bytesOfWords_replicate_zero 16, bytesOfWords_replicate_zero 3, rfl, rfl,
    fun r => readReg_of_results_zero rfl, fun r hr => readReg_completionOf_of_kept _ _ _ (by tauto), rfl, rfl, rfl, rfl,
    rfl, fun i hi => ⟨_, exec_failed rfl ?_, rfl, rfl⟩⟩
  rcases hi with rfl | rfl <;> exact check_zeroizeOperands s.operands

/-! ### The frame of the commands (R164) -/

theorem completionOf_operands {i : Instr} (snap : OperandRegs) (s : State) (hi : i ≠ .zeroize) :
    (completionOf i snap s).operands = s.operands := by
  cases i with
  | gen => rfl
  | verify => rfl
  | zeroize => exact absurd rfl hi

/-- VERIFY writes no result register but `LASTCTR` (R174). -/
theorem readReg_completionOf_verify (snap : OperandRegs) (s : State) {r : Reg} (hs : r ≠ .status)
    (hhi : r ≠ .lastctrHi) (hlo : r ≠ .lastctrLo) : readReg (completionOf .verify snap s) r = readReg s r := by
  cases r with
  | status => exact absurd rfl hs
  | lastctrHi => exact absurd rfl hhi
  | lastctrLo => exact absurd rfl hlo
  | _ => rfl

/-- Settles O30: at acceptance only `STATUS` and the phase change, and a completion writes what its command says. -/
theorem commandFrame : Obligations.CommandFrame := by
  intro i s t hexec
  rcases exec_cases hexec with ⟨hp, rfl⟩ | ⟨op, snap, hp, rfl⟩
  · have hread {r : Reg} (hs : r ≠ .status) : readReg (accept i s) r = readReg s r :=
      readReg_congr (accept_operands i s) (accept_results i s) hs
    refine ⟨accept_inReset i s, accept_inputs i s, accept_readLog i s, accept_overrun i s, fun r hr => hread ?_,
      fun _ => accept_operands i s, fun _ r hs _ _ => hread hs, fun _ => accept_results i s⟩
    rintro rfl
    simp at hr
  · have hbusy : s.phase ≠ .idle := by simp [hp]
    refine ⟨completionOf_inReset i snap s, completionOf_inputs i snap s, completionOf_readLog i snap s,
      completionOf_overrun i snap s, fun r => readReg_completionOf_of_kept i snap s,
      fun h => completionOf_operands snap s (h.resolve_right hbusy), ?_, fun h => absurd h hbusy⟩
    rintro rfl r hs hhi hlo
    exact readReg_completionOf_verify snap s hs hhi hlo

end Sys2Proof.Machine

/-! SUPPORT. Commands along a run (R10, R162 to R164): the sequencer's step, what a pending command's snapshot and
registers go through, the end of every schedule, and what can write the key. -/

namespace Sys2Proof.Machine

/-! ### The sequencer's step (R10, R162) -/

theorem step_of_quiet {s : State} (hr : s.inReset = false) (hi : s.inputs = []) : step s = sequencerTurn s := by
  rw [step_of_nil hi, quietTurn, if_neg (by simp [hr])]

theorem step_of_sequencer {s : State} {rest : List Input} (hr : s.inReset = false)
    (hi : s.inputs = .sequencer :: rest) : step s = sequencerTurn { s with inputs := rest } := by
  rw [step_of_cons hi, agentTurn, if_neg (by simp [hr])]

/-- The sequencer runs the pending command (R162). -/
theorem sequencerTurn_eq_exec {s : State} {op : Instr} {snap : OperandRegs} (hp : s.phase = .busy op snap) :
    sequencerTurn s = exec op s := by
  rw [sequencerTurn_of_busy hp, exec_of_busy op hp]

/-- Settles O22, by the two turns that are the sequencer's. -/
theorem stepCompletesThePendingCommand : Obligations.StepCompletesThePendingCommand := by
  intro s hr
  refine ⟨fun op snap rest hp hi => ?_, fun op snap hp hi => ?_, fun rest hp hi => ?_, fun hp hi => ?_⟩
  · rw [step_of_sequencer hr hi]
    exact sequencerTurn_eq_exec (s := { s with inputs := rest }) hp
  · rw [step_of_quiet hr hi, sequencerTurn_eq_exec hp]
  · rw [step_of_sequencer hr hi]
    exact sequencerTurn_of_idle (s := { s with inputs := rest }) hp
  · rw [step_of_quiet hr hi, sequencerTurn_of_idle hp]

/-! ### What can write the key (R164) -/

theorem write_key_of_ne_key (o : OperandRegs) (v : Word) {r : Reg} (hr : ∀ i, r ≠ .key i) :
    (o.write v r).key = o.key := by
  cases r with
  | key i => exact absurd rfl (hr i)
  | _ => rfl

/-- An access writes the key only as a write to a `KEYi` while idle (R65, R66). -/
theorem hostAccess_changes_key {a : Access} {s t : State} (h : hostAccess a s = .next t)
    (hne : t.operands.key ≠ s.operands.key) :
    s.phase = .idle ∧ ∃ v i, a.kind = .write v ∧ a.target.windowOffset = some (Reg.key i).offset := by
  rcases hostAccess_effect h with ⟨v, -, rfl⟩ | ⟨v, -, -, rfl⟩ | ⟨v, off, op, snap, -, -, -, -, rfl⟩ |
    ⟨hp, ⟨v, i, -, -, -, rfl⟩ | ⟨v, e, -, -, -, rfl⟩ | ⟨v, r, hk, ho, -, rfl⟩ | rfl⟩
  · exact absurd rfl hne
  · exact absurd rfl hne
  · exact absurd rfl hne
  · simp at hne
  · exact absurd rfl hne
  · by_cases hkey : ∃ i, r = .key i
    · obtain ⟨i, rfl⟩ := hkey
      exact ⟨hp, v, i, hk, ho⟩
    · exact absurd (write_key_of_ne_key s.operands v fun i hi => hkey ⟨i, hi⟩) hne
  · exact absurd rfl hne

/-- Of the completions only ZEROIZE's writes the key (R164, R180). -/
theorem completionOf_changes_key {op : Instr} {snap : OperandRegs} {s : State}
    (hne : (completionOf op snap s).operands.key ≠ s.operands.key) : op = .zeroize := by
  by_contra hop
  exact hne (by rw [completionOf_operands snap s hop])

/-- Settles O47: of all that a step can do, only reset, an access and the sequencer's turn can write the key. -/
theorem keyChangesOnlyByKeyWriteZeroizeOrReset : Obligations.KeyChangesOnlyByKeyWriteZeroizeOrReset := by
  intro s t hstep hne
  rcases step_cases hstep with ⟨rest, hi, -⟩ | ⟨rest, hi, rfl⟩ | ⟨-, rfl⟩ | ⟨hr, a, rest, hi, h⟩ |
    ⟨-, n, rest, -, rfl⟩ | ⟨-, -, h⟩
  · exact .inl ⟨rest, .inl hi⟩
  · rcases resetRelease_cases (afterTurn s) with ⟨hr, -⟩ | ⟨-, he⟩
    · exact .inl ⟨rest, .inr ⟨hi, hr⟩⟩
    · simp [he] at hne
  · exact absurd rfl hne
  · obtain ⟨hp, v, i, hk, ho⟩ := hostAccess_changes_key h hne
    refine .inr (.inl ⟨a, v, _, rest, hi, hp, hr, hk, ho, ?_, ?_⟩)
    · simp only [Reg.offset]
      omega
    · simp only [Reg.offset]
      omega
  · simp at hne
  · rcases sequencerTurn_cases h with ⟨-, rfl⟩ | ⟨op, snap, hp, rfl⟩
    · exact absurd rfl hne
    · obtain rfl := completionOf_changes_key hne
      exact .inr (.inr ⟨snap, hp, completionOf_phase _ _ _⟩)

/-! ### Accesses while a command is pending (R65, R161) -/

theorem afterTurn_of_cons {s : State} {i : Input} {rest : List Input} (hi : s.inputs = i :: rest) :
    afterTurn s = { s with inputs := rest } := by
  rw [afterTurn, hi, List.tail_cons]

/-- Two states in which one command is pending with one snapshot, over the same registers but for the bits of `STATUS`
that the host can set or clear meanwhile. -/
structure State.SamePending (s t : State) : Prop where
  phase    : t.phase = s.phase
  operands : t.operands = s.operands
  results  : t.results = s.results
  matched  : t.status.matched = s.status.matched
  inReset  : t.inReset = s.inReset

theorem State.SamePending.refl (s : State) : s.SamePending s := ⟨rfl, rfl, rfl, rfl, rfl⟩

theorem State.SamePending.trans {s t u : State} (h : s.SamePending t) (h' : t.SamePending u) : s.SamePending u :=
  ⟨h'.phase.trans h.phase, h'.operands.trans h.operands, h'.results.trans h.results, h'.matched.trans h.matched,
    h'.inReset.trans h.inReset⟩

theorem afterTurn_samePending (s : State) : s.SamePending (afterTurn s) := ⟨rfl, rfl, rfl, rfl, rfl⟩

/-- No access reaches a pending command, its snapshot or its registers (R65, R161). -/
theorem hostAccess_samePending {a : Access} {s t : State} (hbusy : s.phase ≠ .idle)
    (h : hostAccess a s = .next t) : s.SamePending t := by
  rcases hostAccess_effect h with ⟨v, -, rfl⟩ | ⟨v, -, -, rfl⟩ | ⟨v, off, op, snap, -, -, -, -, rfl⟩ | ⟨hp, -⟩
  · exact ⟨rfl, rfl, rfl, rfl, rfl⟩
  · exact ⟨rfl, rfl, rfl, rfl, rfl⟩
  · exact ⟨rfl, rfl, rfl, rfl, rfl⟩
  · exact absurd hp hbusy

/-- A list of accesses that the bus performs takes a step each and leaves a pending command as it was. -/
theorem runSteps_accesses_samePending (accesses : List Access) (hw : ∀ a ∈ accesses, a.wellFormed = true)
    {s : State} {rest : List Input} (hr : s.inReset = false) (hbusy : s.phase ≠ .idle)
    (hi : s.inputs = accesses.map Input.access ++ rest) :
    ∃ t, runSteps accesses.length s = .next t ∧ s.SamePending t ∧ t.inputs = rest := by
  induction accesses generalizing s with
  | nil => exact ⟨s, rfl, .refl s, hi⟩
  | cons a accesses ih =>
    obtain ⟨u, hu⟩ := hostAccess_next_of_wellFormed (afterTurn s) (hw a (.head _))
    have hsu : s.SamePending u := (afterTurn_samePending s).trans (hostAccess_samePending hbusy hu)
    rw [afterTurn_of_cons hi] at hu
    obtain ⟨t, ht, hut, hrest⟩ := ih (fun b hb => hw b (.tail _ hb)) (hsu.inReset.trans hr)
      (hsu.phase.symm ▸ hbusy) (hostAccess_schedule hu).1
    exact ⟨t, (runSteps_succ _ ((step_of_access hr hi).trans hu)).trans ht, hsu.trans hut, hrest⟩

/-- Settles O44: acceptance, then accesses that leave the command as it was, then its completion. -/
theorem resultsDoNotDependOnTheSchedule : Obligations.ResultsDoNotDependOnTheSchedule := by
  intro s v i accesses rest hr hp hd hc hw hi
  have haccept : step s = .next (begin i (afterTurn s)) := by
    rw [step_of_commandAccess hr hp hi hd, ← afterTurn_of_cons hi, exec_of_idle i (afterTurn s) hp,
      accept_of_check_none (s := afterTurn s) hc]
  obtain ⟨t, hrun, ht, htin⟩ := runSteps_accesses_samePending accesses hw (s := begin i (afterTurn s)) hr (by simp)
    (by rw [begin_inputs, afterTurn_of_cons hi])
  have htop : t.operands = s.operands := ht.operands
  have htres : t.results = s.results := ht.results
  refine ⟨t, completionOf i s.operands { t with inputs := rest }, ?_, ht.phase, htop, htres, ht.matched, htin,
    step_sequencer_of_busy (ht.inReset.trans hr) ht.phase htin, by simp, by simp, ?_, ?_, ?_⟩
  · rw [Nat.add_comm, runSteps_succ _ haccept, hrun]
  · rintro rfl
    exact ⟨rfl, htop, rfl⟩
  · rintro rfl
    exact ⟨congrArg (verifyResults s.operands) htres, htop, rfl⟩
  · rintro rfl
    exact ⟨rfl, congrArg zeroizeOperands htop, rfl⟩

/-! ### Every schedule ends (R163) -/

/-- A turn of any agent but one that continues `POLL`'s loop is taken for good: nothing is listed in its place. -/
theorem agentTurn_taken {i : Input} {s : State} (hw : i.wellFormed = true)
    (hpoll : ∀ n, i = .poll n → s.inReset = true ∨ s.phase = .idle) :
    ∃ t, agentTurn i s = .next t ∧ t.inputs = s.inputs := by
  cases i with
  | resetAssert => exact ⟨_, rfl, rfl⟩
  | resetRelease =>
    refine ⟨_, rfl, ?_⟩
    rcases resetRelease_cases s with ⟨-, h⟩ | ⟨-, h⟩ <;> simp [h]
  | access a =>
    simp only [agentTurn]
    split_ifs
    · exact ⟨s, rfl, rfl⟩
    · obtain ⟨t, ht⟩ := hostAccess_next_of_wellFormed s hw
      exact ⟨t, ht, (hostAccess_schedule ht).1⟩
  | poll n =>
    simp only [agentTurn]
    split_ifs with hr
    · exact ⟨s, rfl, rfl⟩
    · have hp := (hpoll n rfl).resolve_left hr
      exact ⟨_, rfl, by simp [hostPoll, hp]⟩
  | sequencer =>
    simp only [agentTurn]
    split_ifs
    · exact ⟨s, rfl, rfl⟩
    · obtain ⟨t, ht⟩ := sequencerTurn_next s
      refine ⟨t, ht, ?_⟩
      rcases sequencerTurn_cases ht with ⟨-, rfl⟩ | ⟨op, snap, -, rfl⟩ <;> simp

theorem inputCost_pos (i : Input) : 1 ≤ inputCost i := by
  cases i <;> simp [inputCost]

@[simp] theorem scheduleCost_cons (i : Input) (rest : List Input) :
    scheduleCost (i :: rest) = inputCost i + scheduleCost rest := by
  simp [scheduleCost]

/-- A `POLL` loop entered while a command is pending ends after the steps it costs, its turn taken (R88, log 9). -/
theorem runSteps_poll_taken {s : State} {op : Instr} {snap : OperandRegs} {n : Nat} {rest : List Input}
    (hr : s.inReset = false) (hp : s.phase = .busy op snap) (hi : s.inputs = .poll n :: rest) :
    ∃ t, runSteps (inputCost (.poll n)) s = .next t ∧ t.inputs = rest := by
  obtain ⟨t, u, hrun, hexec, rfl, -⟩ := pollEndsWithBusyZero s op snap n rest hr hp hi
  refine ⟨_, hrun, ?_⟩
  rw [exec_of_busy op (s := { s with inputs := rest }) hp] at hexec
  obtain rfl := Host.Outcome.next.inj hexec
  exact completionOf_inputs op snap _

/-- The first listed turn is taken for good within the steps it costs. -/
theorem runSteps_turn_taken {s : State} {i : Input} {rest : List Input} (hw : i.wellFormed = true)
    (hi : s.inputs = i :: rest) :
    ∃ k t, k ≤ inputCost i ∧ runSteps k s = .next t ∧ t.inputs = rest := by
  by_cases hloop : ∃ n op snap, i = .poll n ∧ s.inReset = false ∧ s.phase = .busy op snap
  · obtain ⟨n, op, snap, rfl, hr, hp⟩ := hloop
    obtain ⟨t, hrun, ht⟩ := runSteps_poll_taken hr hp hi
    exact ⟨_, t, le_rfl, hrun, ht⟩
  · have hpoll : ∀ n, i = .poll n → s.inReset = true ∨ s.phase = .idle := by
      intro n hn
      by_contra hbusy
      cases hp : s.phase with
      | idle => simp [hp] at hbusy
      | busy op snap => exact hloop ⟨n, op, snap, hn, by simpa [hp] using hbusy, hp⟩
    obtain ⟨t, ht, htin⟩ := agentTurn_taken (s := { s with inputs := rest }) hw hpoll
    exact ⟨1, t, inputCost_pos i, runSteps_succ 0 ((step_of_cons hi).trans ht), htin⟩

/-- The invariant is kept by a run of steps. -/
theorem runSteps_inv (n : Nat) {s t : State} (h : s.Inv) (hrun : runSteps n s = .next t) : t.Inv := by
  induction n generalizing s with
  | zero => exact Host.Outcome.next.inj hrun ▸ h
  | succ n ih =>
    cases hs : step s with
    | next u => exact ih (everyStepKeepsTheInvariant s u h hs) (runSteps_succ n hs ▸ hrun)
    | fault f => simp [runSteps, hs] at hrun
    | refused r => simp [runSteps, hs] at hrun

/-- All listed turns are taken within the steps the schedule costs. -/
theorem runSteps_schedule_taken (turns : List Input) (hw : ∀ i ∈ turns, i.wellFormed = true) {s : State}
    (hi : s.inputs = turns) : ∃ k t, k ≤ scheduleCost turns ∧ runSteps k s = .next t ∧ t.inputs = [] := by
  induction turns generalizing s with
  | nil => exact ⟨0, s, Nat.zero_le _, rfl, hi⟩
  | cons i rest ih =>
    obtain ⟨j, u, hj, hju, hu⟩ := runSteps_turn_taken (hw i (.head _)) hi
    obtain ⟨k, t, hk, hkt, ht⟩ := ih (fun b hb => hw b (.tail _ hb)) hu
    exact ⟨j + k, t, by rw [scheduleCost_cons]; omega, (runSteps_add j k hju).trans hkt, ht⟩

/-- With no turn listed the next step leaves no command pending: the sequencer completes it (log 2), and while reset is
asserted there is none (R250). -/
theorem step_quiet_idle {s : State} (h : s.Inv) (hi : s.inputs = []) :
    ∃ t, step s = .next t ∧ t.inputs = [] ∧ t.phase = .idle := by
  cases hr : s.inReset with
  | true =>
    obtain ⟨-, -, -, hp⟩ := h.reset hr
    exact ⟨s, by rw [step_of_nil hi, quietTurn, if_pos hr], hi, hp⟩
  | false =>
    rw [step_of_quiet hr hi]
    cases hp : s.phase with
    | idle => exact ⟨s, sequencerTurn_of_idle hp, hi, hp⟩
    | busy op snap => exact ⟨_, sequencerTurn_of_busy hp, by simp [hi], completionOf_phase op snap s⟩

/-- Settles O43: the listed turns are taken within their cost, one step more completes what is pending, and an idle core
with no turn listed stays as it is. -/
theorem everyScheduleEndsIdle : Obligations.EveryScheduleEndsIdle := by
  intro s ⟨hinv, hsched⟩
  obtain ⟨k, u, hk, hku, hu⟩ := runSteps_schedule_taken s.inputs hsched rfl
  obtain ⟨t, hut, htin, htp⟩ := step_quiet_idle (runSteps_inv k hinv hku) hu
  have hrun : runSteps (scheduleCost s.inputs + 1) s = .next t := by
    rw [show scheduleCost s.inputs + 1 = k + ((scheduleCost s.inputs - k) + 1) by omega, runSteps_add k _ hku,
      runSteps_succ _ hut, runSteps_of_quiet _ htin htp]
  exact ⟨t, hrun, htin, htp, runSteps_inv _ hinv hrun, by simp [State.ScheduleOk, htin]⟩

end Sys2Proof.Machine

/-! SUPPORT. Seed normalization (R200, R201): what each character becomes, and the nibbles of a normalized seed. -/

namespace Sys2Proof.Machine

/-! ### One character -/

theorem lowerChar_toNat (c : Char) :
    (lowerChar c).toNat = if 0x41 ≤ c.toNat ∧ c.toNat ≤ 0x5A then c.toNat + 0x20 else c.toNat := by
  unfold lowerChar
  split_ifs with h
  · rw [Char.toNat_ofNat, if_pos (Or.inl (by omega))]
  · rfl

theorem isNamedWhitespace_iff (c : Char) :
    isNamedWhitespace c = true ↔ c.toNat = 0x20 ∨ c.toNat = 0x09 ∨ c.toNat = 0x0A ∨ c.toNat = 0x0D := by
  simp [isNamedWhitespace, or_assoc]

theorem isLowerHex_iff (c : Char) :
    isLowerHex c = true ↔ (0x30 ≤ c.toNat ∧ c.toNat ≤ 0x39) ∨ (0x61 ≤ c.toNat ∧ c.toNat ≤ 0x66) := by
  simp [isLowerHex]

theorem isWhitespace_of_named {c : Char} (h : isNamedWhitespace c = true) : isWhitespace c = true := by
  simp [isWhitespace, h]

/-- A printing ASCII character is no whitespace (log 14). -/
theorem isWhitespace_of_graphic {c : Char} (hlo : 0x21 ≤ c.toNat) (hhi : c.toNat ≤ 0x7E) :
    isWhitespace c = false := by
  have hnamed : ¬ isNamedWhitespace c = true := by
    rw [isNamedWhitespace_iff]
    omega
  simp [isWhitespace, hnamed, isGraphic, hlo, hhi]

/-- Lower-casing leaves a character of a normalized seed as it is. -/
theorem lowerChar_of_isLowerHex {c : Char} (h : isLowerHex c = true) : lowerChar c = c := by
  rw [isLowerHex_iff] at h
  rw [lowerChar, if_neg (by omega)]

/-- One letter in its two cases. -/
def LetterCases (c d : Char) : Prop := 0x41 ≤ c.toNat ∧ c.toNat ≤ 0x5A ∧ d.toNat = c.toNat + 0x20

theorem LetterCases.lowerChar_eq {c d : Char} (h : LetterCases c d) : lowerChar c = lowerChar d := by
  obtain ⟨hlo, hhi, hd⟩ := h
  apply Char.toNat_inj.1
  rw [lowerChar_toNat, lowerChar_toNat, if_pos ⟨hlo, hhi⟩, if_neg (by omega), hd]

theorem LetterCases.isWhitespace_eq {c d : Char} (h : LetterCases c d) : isWhitespace c = isWhitespace d := by
  obtain ⟨hlo, hhi, hd⟩ := h
  rw [isWhitespace_of_graphic (by omega) (by omega), isWhitespace_of_graphic (by omega) (by omega)]

/-! ### The stripped string -/

theorem strippedSeed_append (a b : List Char) : strippedSeed (a ++ b) = strippedSeed a ++ strippedSeed b := by
  simp [strippedSeed]

/-- Nothing is left of a string of named whitespace. -/
theorem strippedSeed_of_named {ws : List Char} (h : ∀ c ∈ ws, isNamedWhitespace c = true) : strippedSeed ws = [] := by
  have hfilter : (ws.filter fun c => !isWhitespace c) = [] := by
    rw [List.filter_eq_nil_iff]
    intro c hc
    simp [isWhitespace_of_named (h c hc)]
  rw [strippedSeed, hfilter, List.map_nil]

/-- A string of lower-case hex digits is left as it is. -/
theorem strippedSeed_of_lowerHex {h : List Char} (hh : ∀ c ∈ h, isLowerHex c = true) : strippedSeed h = h := by
  have hfilter : (h.filter fun c => !isWhitespace c) = h := by
    rw [List.filter_eq_self]
    intro c hc
    have := (isLowerHex_iff c).1 (hh c hc)
    simp [isWhitespace_of_graphic (c := c) (by omega) (by omega)]
  rw [strippedSeed, hfilter]
  exact (List.map_congr_left fun c hc => lowerChar_of_isLowerHex (hh c hc)).trans (List.map_id' h)

theorem LetterCases.strippedSeed_eq {c d : Char} (h : LetterCases c d) : strippedSeed [c] = strippedSeed [d] := by
  simp only [strippedSeed, List.filter, h.isWhitespace_eq]
  cases isWhitespace d <;> simp [h.lowerChar_eq]

/-- Putting letters in the other case does not change the stripped string. -/
theorem strippedSeed_recased {raw recased : List Char}
    (h : List.Forall₂ (fun c d => d = c ∨ LetterCases c d ∨ LetterCases d c) raw recased) :
    strippedSeed recased = strippedSeed raw := by
  induction h with
  | nil => rfl
  | @cons c d cs ds hcd _ ih =>
    have hhead : strippedSeed [d] = strippedSeed [c] := by
      rcases hcd with rfl | h | h
      · rfl
      · exact h.strippedSeed_eq.symm
      · exact h.strippedSeed_eq
    rw [← List.singleton_append, strippedSeed_append, hhead, ih, ← strippedSeed_append, List.singleton_append]

/-- A normalized seed is the stripped string, and is made of 64 lower-case hex digits (R200). -/
theorem normalizeHexSeed_eq_ok_iff {raw hex : List Char} :
    normalizeHexSeed raw = .ok hex ↔
      strippedSeed raw = hex ∧ hex.length = 64 ∧ ∀ c ∈ hex, isLowerHex c = true := by
  unfold normalizeHexSeed
  split_ifs with h
  · rw [List.all_eq_true] at h
    simp only [Except.ok.injEq]
    exact ⟨fun heq => ⟨heq, heq ▸ h⟩, fun heq => heq.1⟩
  · rw [List.all_eq_true] at h
    simp only [false_iff]
    rintro ⟨rfl, hhex⟩
    exact h hhex

/-- Normalization depends on the stripped string alone. -/
theorem normalizeHexSeed_congr {raw raw' : List Char} (h : strippedSeed raw' = strippedSeed raw) :
    normalizeHexSeed raw' = normalizeHexSeed raw := by
  rw [normalizeHexSeed, normalizeHexSeed, h]

/-- Settles O51: none of the changes reaches the stripped string. -/
theorem seedNormalizationIsIdempotent : Obligations.SeedNormalizationIsIdempotent := by
  intro raw hex hok
  obtain ⟨rfl, hlen, hhex⟩ := normalizeHexSeed_eq_ok_iff.1 hok
  refine ⟨hlen, fun c hc => (isLowerHex_iff c).1 (hhex c hc),
    normalizeHexSeed_eq_ok_iff.2 ⟨strippedSeed_of_lowerHex hhex, hlen, hhex⟩, fun recased hrecased => ?_,
    fun pre post ws hraw hws => ?_⟩
  · refine (normalizeHexSeed_congr (strippedSeed_recased (hrecased.imp fun c d h => ?_))).trans hok
    exact h.imp_left Char.toNat_inj.1
  · have hnil : strippedSeed ws = [] := strippedSeed_of_named fun c hc => (isNamedWhitespace_iff c).2 (hws c hc)
    refine (normalizeHexSeed_congr ?_).trans hok
    rw [strippedSeed_append, strippedSeed_append, hnil, List.append_nil, hraw, strippedSeed_append]

/-! ### Which strings are seeds -/

/-- A hex digit of either case. -/
def IsHexDigit (c : Char) : Prop :=
  (0x30 ≤ c.toNat ∧ c.toNat ≤ 0x39) ∨ (0x41 ≤ c.toNat ∧ c.toNat ≤ 0x46) ∨ (0x61 ≤ c.toNat ∧ c.toNat ≤ 0x66)

/-- The lower case of a printing ASCII character is a digit of a seed exactly for a hex digit. -/
theorem isLowerHex_lowerChar_iff (c : Char) : isLowerHex (lowerChar c) = true ↔ IsHexDigit c := by
  rw [isLowerHex_iff, lowerChar_toNat, IsHexDigit]
  split_ifs <;> omega

theorem isWhitespace_of_isHexDigit {c : Char} (h : IsHexDigit c) : isWhitespace c = false := by
  unfold IsHexDigit at h
  exact isWhitespace_of_graphic (by omega) (by omega)

theorem lowerChar_of_isHexDigit {c : Char} (h : IsHexDigit c) :
    lowerChar c = if 0x41 ≤ c.toNat ∧ c.toNat ≤ 0x46 then Char.ofNat (c.toNat + 0x20) else c := by
  unfold IsHexDigit at h
  unfold lowerChar
  congr 1
  rw [eq_iff_iff]
  omega

/-- A printing character that is no hex digit stays in the string and is none of `0-9a-f`. -/
theorem normalizeHexSeed_of_graphic {raw : List Char} {c : Char} (hc : c ∈ raw) (hlo : 0x21 ≤ c.toNat)
    (hhi : c.toNat ≤ 0x7E) (hhex : ¬ IsHexDigit c) : normalizeHexSeed raw = .error .validation := by
  have hmem : lowerChar c ∈ strippedSeed raw :=
    List.mem_map_of_mem (List.mem_filter.2 ⟨hc, by simp [isWhitespace_of_graphic hlo hhi]⟩)
  rw [normalizeHexSeed, if_neg]
  rintro ⟨-, hall⟩
  exact hhex ((isLowerHex_lowerChar_iff c).1 (List.all_eq_true.1 hall _ hmem))

/-- Settles O52: of a string of hex digits and named whitespace the hex digits are left. -/
theorem seedNormalizationAcceptsExactlySeeds : Obligations.SeedNormalizationAcceptsExactlySeeds := by
  refine ⟨fun raw hraw => ?_, fun raw c hc hlo hhi h0 hA ha =>
    normalizeHexSeed_of_graphic hc hlo hhi (by unfold IsHexDigit; omega)⟩
  have hfilter : (raw.filter fun c => !isWhitespace c) = raw.filter fun c => !isNamedWhitespace c := by
    refine List.filter_congr fun c hc => ?_
    rcases hraw c hc with hw | hh
    · rw [isWhitespace_of_named hw, hw]
    · have hw := isWhitespace_of_isHexDigit hh
      have hn : isNamedWhitespace c = false := by
        by_contra h
        simp [isWhitespace_of_named (by simpa using h)] at hw
      rw [hw, hn]
  have hdigit : ∀ c ∈ raw.filter fun c => !isNamedWhitespace c, IsHexDigit c := by
    intro c hc
    obtain ⟨hc, hn⟩ := List.mem_filter.1 hc
    exact (hraw c hc).resolve_left (by simpa using hn)
  have hall : (strippedSeed raw).all isLowerHex = true := by
    rw [List.all_eq_true, strippedSeed, hfilter]
    intro d hd
    obtain ⟨c, hc, rfl⟩ := List.mem_map.1 hd
    exact (isLowerHex_lowerChar_iff c).2 (hdigit c hc)
  have hstripped := List.map_congr_left fun c hc => lowerChar_of_isHexDigit (hdigit c hc)
  rw [normalizeHexSeed, hall, strippedSeed, hfilter, hstripped]
  simp

/-! ### The bytes of a seed (R201) -/

theorem nib_lt {c : Char} (h : isLowerHex c = true) : nib c < 16 := by
  rw [isLowerHex_iff] at h
  unfold nib
  split_ifs <;> omega

theorem hexToBytes_length : ∀ h : List Char, (hexToBytes h).length = h.length / 2
  | [] => rfl
  | [_] => by simp [hexToBytes]
  | hi :: lo :: rest => by
    rw [hexToBytes, List.length_cons, hexToBytes_length rest]
    simp only [List.length_cons]
    omega

/-- Byte `j` is made of nibbles `2j` and `2j + 1` (R201). -/
theorem hexToBytes_getD_toNat : ∀ (h : List Char) (j : Nat), (∀ c ∈ h, isLowerHex c = true) → 2 * j + 1 < h.length →
    ((hexToBytes h).getD j 0#8).toNat = 16 * nib (h.getD (2 * j) '0') + nib (h.getD (2 * j + 1) '0')
  | hi :: lo :: rest, 0, hh, _ => by
    have h1 := nib_lt (hh hi (by simp))
    have h2 := nib_lt (hh lo (by simp))
    simp only [hexToBytes, List.getD_cons_zero, List.getD_cons_succ, Nat.mul_zero, Nat.zero_add, BitVec.toNat_ofNat]
    omega
  | hi :: lo :: rest, j + 1, hh, hj => by
    simp only [List.length_cons] at hj
    have ih := hexToBytes_getD_toNat rest j (fun c hc => hh c (by simp [hc])) (by omega)
    rw [hexToBytes, List.getD_cons_succ, ih, show 2 * (j + 1) = 2 * j + 1 + 1 by omega]
    simp only [List.getD_cons_succ]

/-- Settles O53, by recursion over the pairs of characters. -/
theorem hexToBytesPairsNibbles : Obligations.HexToBytesPairsNibbles := by
  refine ⟨by decide, by decide, fun h hlen hh => ⟨?_, fun j hj => hexToBytes_getD_toNat h j hh (by omega)⟩⟩
  rw [hexToBytes_length, hlen]

end Sys2Proof.Machine

/-! SUPPORT. What the driver's statements load (R88, R202, R205): the register writes each stands for, the operands after
them, and `EQ` of a loaded candidate. -/

namespace Sys2Proof.Machine

/-! ### Register writes on the operands alone -/

/-- The operand registers after a list of register writes. -/
def OperandRegs.writeAll (o : OperandRegs) (ws : List (Reg × Word)) : OperandRegs :=
  ws.foldl (fun o p => o.write p.2 p.1) o

@[simp] theorem writeAll_nil (o : OperandRegs) : o.writeAll [] = o := rfl

@[simp] theorem writeAll_cons (o : OperandRegs) (p : Reg × Word) (ws : List (Reg × Word)) :
    o.writeAll (p :: ws) = (o.write p.2 p.1).writeAll ws := rfl

@[simp] theorem writeAll_append (o : OperandRegs) (ws vs : List (Reg × Word)) :
    o.writeAll (ws ++ vs) = (o.writeAll ws).writeAll vs := List.foldl_append

theorem writeRegs_eq_writeAll (ws : List (Reg × Word)) (s : State) :
    writeRegs ws s = { s with operands := s.operands.writeAll ws } := by
  induction ws generalizing s with
  | nil => rfl
  | cons p ws ih => exact ih (writeReg s p.1 p.2)

@[simp] theorem writeTurns_append (ws vs : List (Reg × Word)) :
    writeTurns (ws ++ vs) = writeTurns ws ++ writeTurns vs := List.map_append

/-- Writes that go to the operand registers: none of them acknowledges (R31) or issues a command (R80). -/
def OperandWrites (ws : List (Reg × Word)) : Prop := ∀ p ∈ ws, p.1 ≠ .status ∧ p.1 ≠ .cmd

theorem OperandWrites.append {ws vs : List (Reg × Word)} (hw : OperandWrites ws) (hv : OperandWrites vs) :
    OperandWrites (ws ++ vs) :=
  fun p hp => (List.mem_append.1 hp).elim (hw p) (hv p)

/-- A sequence that only writes operand registers, run on an idle core. -/
theorem runSequence_writes {stmts : List Stmt} {ws : List (Reg × Word)} {s : State}
    (hexp : expandAll stmts = writeTurns ws) (hw : OperandWrites ws) (hp : s.phase = .idle)
    (hr : s.inReset = false) :
    runSequence stmts s = .next { s with inputs := [], operands := s.operands.writeAll ws } := by
  have hrun := runSteps_writeTurns ws hw (s := { s with inputs := writeTurns ws }) hp hr (List.append_nil _).symm
  rw [runSequence, hexp, scheduleCost_writeTurns, hrun, writeRegs_eq_writeAll]

/-! ### `LDKEY` (R202) -/

/-- The key registers once the first `n` words of a byte array are in them. -/
def keyPrefix (bytes : List Byte) (n : Nat) (key : Vector Word 16) : Vector Word 16 :=
  Vector.ofFn fun i => if i.val < n then packedWord bytes i.val else key[i]

theorem keyPrefix_getElem (bytes : List Byte) (n : Nat) (key : Vector Word 16) {i : Nat} (hi : i < 16) :
    (keyPrefix bytes n key)[i] = if i < n then packedWord bytes i else key[i] := by
  simp [keyPrefix]

theorem keyPrefix_zero (bytes : List Byte) (key : Vector Word 16) : keyPrefix bytes 0 key = key := by
  ext i hi : 1
  simp [keyPrefix_getElem bytes 0 key hi]

theorem keyPrefix_succ (bytes : List Byte) (key : Vector Word 16) {n : Nat} (hn : n < 16) :
    (keyPrefix bytes n key).set n (packedWord bytes n) hn = keyPrefix bytes (n + 1) key := by
  ext i hi : 1
  rw [Vector.getElem_set, keyPrefix_getElem _ _ _ hi, keyPrefix_getElem _ _ _ hi]
  rcases Nat.lt_trichotomy i n with hlt | rfl | hgt
  · rw [if_neg (by omega), if_pos hlt, if_pos (by omega)]
  · rw [if_pos rfl, if_pos (by omega)]
  · rw [if_neg (by omega), if_neg (by omega), if_neg (by omega)]

/-- The writes of the first `n` words of a key. -/
def keyWrites (bytes : List Byte) (n : Nat) : List (Reg × Word) :=
  (List.range n).map fun i => (Reg.key (Fin.ofNat 16 i), packedWord bytes i)

/-- The register writes of `LDKEY` (R88). -/
def ldkeyWrites (bytes : List Byte) : List (Reg × Word) :=
  keyWrites bytes ((bytes.length + 3) / 4) ++ [(.keylen, BitVec.ofNat 32 bytes.length)]

theorem ldkeyAccesses_eq_writeTurns {bytes : List Byte} (h : bytes.length ≤ 64) :
    ldkeyAccesses bytes = writeTurns (ldkeyWrites bytes) := by
  rw [ldkeyAccesses, ldkeyWrites, writeTurns_append, keyWrites, writeTurns, List.map_map]
  congr 1
  refine List.map_congr_left fun i hi => ?_
  have hi16 : i < 16 := by
    have := List.mem_range.1 hi
    omega
  simp [Reg.offset, Nat.mod_eq_of_lt hi16]

theorem operandWrites_ldkey (bytes : List Byte) : OperandWrites (ldkeyWrites bytes) := by
  intro p hp
  rcases List.mem_append.1 hp with h | h
  · obtain ⟨i, -, rfl⟩ := List.mem_map.1 h
    exact ⟨by simp, by simp⟩
  · rw [List.mem_singleton.1 h]
    exact ⟨nofun, nofun⟩

theorem writeAll_keyWrites (o : OperandRegs) (bytes : List Byte) {n : Nat} (hn : n ≤ 16) :
    o.writeAll (keyWrites bytes n) = { o with key := keyPrefix bytes n o.key } := by
  induction n with
  | zero => rw [keyPrefix_zero]; rfl
  | succ n ih =>
    have hmod : n % 16 = n := Nat.mod_eq_of_lt (by omega)
    have hlast : keyWrites bytes (n + 1) =
        keyWrites bytes n ++ [(Reg.key (Fin.ofNat 16 n), packedWord bytes n)] := by
      simp [keyWrites, List.range_succ]
    rw [hlast, writeAll_append, ih (by omega), ← keyPrefix_succ _ _ (by omega)]
    simp [OperandRegs.write, hmod]

/-- The operands with a secret loaded (R202): its words, the other key registers as they were, and its length. -/
def OperandRegs.withKey (o : OperandRegs) (bytes : List Byte) : OperandRegs :=
  { o with
    key := keyPrefix bytes ((bytes.length + 3) / 4) o.key
    keylen := (BitVec.ofNat 32 bytes.length).extractLsb' 0 7 }

theorem writeAll_ldkeyWrites (o : OperandRegs) {bytes : List Byte} (h : bytes.length ≤ 64) :
    o.writeAll (ldkeyWrites bytes) = o.withKey bytes := by
  rw [ldkeyWrites, writeAll_append, writeAll_keyWrites _ _ (by omega)]
  rfl

theorem withKey_keylen_toNat (o : OperandRegs) {bytes : List Byte} (h : bytes.length ≤ 64) :
    (o.withKey bytes).keylen.toNat = bytes.length := by
  simp only [OperandRegs.withKey, BitVec.extractLsb'_toNat, BitVec.toNat_ofNat, Nat.shiftRight_zero]
  omega

/-- Byte `k` of the key is byte `k mod 4` of register `k / 4` (R38, R84). -/
theorem keyBytes_getD (o : OperandRegs) {k : Nat} (hk : k < 64) :
    o.keyBytes.getD k 0#8 = wordByte (o.key[k / 4]'(by omega)) (k % 4) := by
  have h := bytesOfWords_getD o.key.toList (k / 4) (k % 4) (by simp; omega) (Nat.mod_lt _ (by decide))
  rw [Nat.div_add_mod, List.getD_eq_getElem o.key.toList _ (by simp; omega), Vector.getElem_toList] at h
  exact h

theorem withKey_keyBytes_getD (o : OperandRegs) {bytes : List Byte} (h : bytes.length ≤ 64) {k : Nat}
    (hk : k < bytes.length) : (o.withKey bytes).keyBytes.getD k 0#8 = bytes.getD k 0#8 := by
  have hword : (o.withKey bytes).key[k / 4]'(by omega) = packedWord bytes (k / 4) :=
    (keyPrefix_getElem _ _ _ (by omega)).trans (if_pos (by omega))
  rw [keyBytes_getD _ (by omega), hword, wordByte_packedWord _ _ (Nat.mod_lt _ (by decide)), Nat.div_add_mod]

/-- The loaded bytes are the key of the next command (R38, R202). -/
theorem withKey_secret (o : OperandRegs) {bytes : List Byte} (h : bytes.length ≤ 64) :
    (o.withKey bytes).secret = bytes := by
  have hkeylen := withKey_keylen_toNat o h
  have hlen : (o.withKey bytes).secret.length = bytes.length := by
    rw [secret_length _ (by omega), hkeylen]
  refine bytes_ext hlen fun k hk => ?_
  rw [hlen] at hk
  have htake := take_drop_getD (o.withKey bytes).keyBytes 0 hk
  rw [List.drop_zero, Nat.zero_add] at htake
  rw [OperandRegs.secret, hkeylen, htake, withKey_keyBytes_getD o h hk]

/-- Settles O54: `LDKEY` is a list of register writes, after which the key is its bytes. -/
theorem ldkeyLoadsTheKey : Obligations.LdkeyLoadsTheKey := by
  intro s secret hp hr _ h64
  have hexp : expandAll [.ldkey secret] = writeTurns (ldkeyWrites secret) := by
    rw [← ldkeyAccesses_eq_writeTurns h64]
    exact List.append_nil _
  refine ⟨{ s with inputs := [], operands := s.operands.withKey secret }, ?_, withKey_secret _ h64,
    withKey_keylen_toNat _ h64, rfl⟩
  rw [runSequence_writes hexp (operandWrites_ldkey secret) hp hr, writeAll_ldkeyWrites _ h64]

/-! ### `LDCAND` and `EQ` (R173, R205) -/

/-- The register writes of `LDCAND` (R88). -/
def ldcandWrites (q : List Char) : List (Reg × Word) :=
  [(.cand 0, packedWord (encCandidate q) 0), (.cand 1, packedWord (encCandidate q) 1),
    (.cand 2, packedWord (encCandidate q) 2), (.candlen, BitVec.ofNat 32 (candidateLength q))]

theorem operandWrites_ldcand (q : List Char) : OperandWrites (ldcandWrites q) := by
  simp [OperandWrites, ldcandWrites]

/-- The operands with a candidate loaded (R205). -/
def OperandRegs.withCandidate (o : OperandRegs) (q : List Char) : OperandRegs :=
  { o with
    cand := #v[packedWord (encCandidate q) 0, packedWord (encCandidate q) 1, packedWord (encCandidate q) 2]
    candlen := (BitVec.ofNat 32 (candidateLength q)).extractLsb' 0 8 }

theorem writeAll_ldcandWrites (o : OperandRegs) (q : List Char) :
    o.writeAll (ldcandWrites q) = o.withCandidate q := by
  have hcand : ((o.cand.set 0 (packedWord (encCandidate q) 0)).set 1 (packedWord (encCandidate q) 1)).set 2
      (packedWord (encCandidate q) 2) =
      #v[packedWord (encCandidate q) 0, packedWord (encCandidate q) 1, packedWord (encCandidate q) 2] := by
    ext i hi : 1
    interval_cases i <;> simp
  rw [OperandRegs.withCandidate, ← hcand]
  rfl

theorem encCandidate_length (q : List Char) : (encCandidate q).length = 12 := by
  simp [encCandidate, Config.codeBufferBytes]

theorem encCandidate_getD {q : List Char} {k : Nat} (hk : k < 12) :
    (encCandidate q).getD k 0#8 = ((q[k]?).map encChar).getD 0#8 := by
  rw [List.getD_eq_getElem _ _ (by rwa [encCandidate_length])]
  simp [encCandidate]

theorem withCandidate_candBytes (o : OperandRegs) (q : List Char) :
    (o.withCandidate q).candBytes = encCandidate q :=
  bytesOfWords_three _ (encCandidate_length q)

theorem withCandidate_candlen_toNat (o : OperandRegs) (q : List Char) :
    (o.withCandidate q).candlen.toNat = candidateLength q := by
  simp only [OperandRegs.withCandidate, candidateLength, BitVec.extractLsb'_toNat, BitVec.toNat_ofNat,
    Nat.shiftRight_zero]
  omega

/-- A character is encoded as an ASCII byte exactly when it is that ASCII character (R205): `0xFF` is none. -/
theorem encChar_eq_iff {c : Char} {b : Byte} (hb : b.toNat ≤ 0x7F) : encChar c = b ↔ c.toNat = b.toNat := by
  rw [← BitVec.toNat_inj, encChar]
  split_ifs with hc
  · rw [BitVec.toNat_ofNat, Nat.mod_eq_of_lt (by omega)]
  · have : (0xFF#8).toNat = 0xFF := rfl
    omega

/-- `EQ` of a loaded candidate with an ASCII string of `DIGITS` characters is equality of strings (R173, R205). -/
theorem candidateEquals_iff_eq {o : OperandRegs} {q : List Char} {str : List Byte}
    (hbytes : o.candBytes = encCandidate q) (hcandlen : o.candlen.toNat = candidateLength q)
    (hlen : str.length = o.digits) (hd : o.digits ≤ 12) (hascii : ∀ b ∈ str, b.toNat ≤ 0x7F) :
    o.candidateEquals str = true ↔ q.map Char.toNat = str.map BitVec.toNat := by
  have hqlen : candidateLength q = o.digits ↔ q.length = str.length := by
    rw [candidateLength]
    omega
  have hchar (hq : q.length = str.length) (k : Nat) (hk : k < o.digits) :
      o.candBytes.getD k 0#8 = str.getD k 0#8 ↔
        (q[k]'(by omega)).toNat = (str[k]'(by omega)).toNat := by
    rw [hbytes, encCandidate_getD (by omega), List.getElem?_eq_getElem (by omega),
      List.getD_eq_getElem _ _ (by omega)]
    exact encChar_eq_iff (hascii _ (List.getElem_mem _))
  rw [candidateEquals_iff, hcandlen, hqlen]
  constructor
  · rintro ⟨hq, h⟩
    refine List.ext_getElem (by simpa using hq) fun k hk _ => ?_
    have hk : k < o.digits := by
      rw [List.length_map] at hk
      omega
    simpa using (hchar hq k hk).1 (h k hk)
  · intro h
    have hq : q.length = str.length := by simpa using congrArg List.length h
    refine ⟨hq, fun k hk => (hchar hq k hk).2 ?_⟩
    have hk' : (q.map Char.toNat)[k]? = (str.map BitVec.toNat)[k]? := by rw [h]
    simpa [List.getElem?_eq_getElem (show k < q.length by omega),
      List.getElem?_eq_getElem (show k < str.length by omega)] using hk'

theorem codeString_ascii {d code : Nat} {b : Byte} (hb : b ∈ codeString d code) : b.toNat ≤ 0x7F :=
  (codeString_isDigit hb).2.trans (by decide)

/-- Settles O55: the loaded registers hold the encoded characters, and a code string is ASCII. -/
theorem candidateEqualityIsStringEquality : Obligations.CandidateEqualityIsStringEquality := by
  intro s candidate code hp hr _ hd9
  refine ⟨{ s with inputs := [], operands := s.operands.withCandidate candidate }, ?_, ?_, rfl⟩
  · rw [runSequence_writes (ws := ldcandWrites candidate) rfl (operandWrites_ldcand candidate) hp hr,
      writeAll_ldcandWrites]
  · exact candidateEquals_iff_eq (withCandidate_candBytes _ _) (withCandidate_candlen_toNat _ _)
      (codeString_length _ _) (hd9.trans (by decide)) fun _ => codeString_ascii

end Sys2Proof.Machine

/-! SUPPORT. The driver's calls (R203 to R209): a run of operand writes, one command and its `POLL`, what the three calls
load, and how each answer follows from the state the command leaves. -/

namespace Sys2Proof.Machine

/-! ### Sequences that never stop -/

/-- With no turn listed no step stops the machine, and none is listed after it. -/
theorem runSteps_quiet_next (n : Nat) {s : State} (hi : s.inputs = []) : ∃ t, runSteps n s = .next t := by
  induction n generalizing s with
  | zero => exact ⟨s, rfl⟩
  | succ n ih =>
    obtain ⟨t, ht, htin⟩ : ∃ t, step s = .next t ∧ t.inputs = [] := by
      rw [step_of_nil hi, quietTurn]
      split_ifs
      · exact ⟨s, rfl, hi⟩
      · obtain ⟨t, ht⟩ := sequencerTurn_next s
        refine ⟨t, ht, ?_⟩
        rcases sequencerTurn_cases ht with ⟨-, rfl⟩ | ⟨op, snap, -, rfl⟩ <;> simp [hi]
    rw [runSteps_succ n ht]
    exact ih htin

/-- A sequence of accesses that the bus performs runs to its end from any state (R61, log 9). -/
theorem runSequence_next {stmts : List Stmt} (s : State) (hw : ∀ i ∈ expandAll stmts, i.wellFormed = true) :
    ∃ t, runSequence stmts s = .next t := by
  obtain ⟨k, u, hk, hrun, hu⟩ := runSteps_schedule_taken (s := { s with inputs := expandAll stmts }) _ hw rfl
  rw [runSequence, show scheduleCost (expandAll stmts) = k + (scheduleCost (expandAll stmts) - k) by omega,
    runSteps_add k _ hrun]
  exact runSteps_quiet_next _ hu

/-- While reset is asserted the host's turns pass without effect (R251, log 5). -/
theorem runSteps_inReset (n : Nat) {s : State} (hr : s.inReset = true)
    (hi : ∀ i ∈ s.inputs, i ≠ .resetAssert ∧ i ≠ .resetRelease) :
    runSteps n s = .next { s with inputs := s.inputs.drop n } := by
  induction n generalizing s with
  | zero => rfl
  | succ n ih =>
    have hstep : step s = .next (afterTurn s) := by
      cases hs : s.inputs with
      | nil =>
        rw [step_of_nil hs, quietTurn, if_pos hr, afterTurn, hs, List.tail_nil, ← hs]
      | cons i rest =>
        rw [step_of_cons hs, afterTurn_of_cons hs]
        obtain ⟨ha, hrel⟩ := hi i (by simp [hs])
        cases i with
        | resetAssert => exact absurd rfl ha
        | resetRelease => exact absurd rfl hrel
        | _ => exact if_pos hr
    rw [runSteps_succ n hstep, ih (s := afterTurn s) hr fun i h => hi i (List.mem_of_mem_tail h), List.drop_tail]

/-! ### One command and its `POLL` -/

/-- The turns of a call: operand writes, the command, `POLL` (R203, R204, R206). -/
def commandTurns (ws : List (Reg × Word)) (i : Instr) (busyReads : Nat) : List Input :=
  writeTurns ws ++ [commandAccess (encode i), .poll busyReads]

theorem mem_commandTurns {ws : List (Reg × Word)} {i : Instr} {busyReads : Nat} {turn : Input}
    (h : turn ∈ commandTurns ws i busyReads) :
    turn = .poll busyReads ∨ ∃ (r : Reg) (v : Word), turn = wrAccess r.offset v := by
  rcases List.mem_append.1 h with h | h
  · obtain ⟨p, -, rfl⟩ := List.mem_map.1 h
    exact .inr ⟨p.1, p.2, rfl⟩
  · rcases List.mem_pair.1 h with rfl | rfl
    · exact .inr ⟨.cmd, encode i, rfl⟩
    · exact .inl rfl

theorem wrAccess_offset_wellFormed (r : Reg) (v : Word) : (wrAccess r.offset v).wellFormed = true := by
  simp [wrAccess, write32, Input.wellFormed, Access.wellFormed, Target.wellFormed, offsetWellFormed,
    reg_offset_lt, reg_offset_mod]

theorem accept_of_check_some {i : Instr} {s : State} {code : ErrCode} (hc : commandCheck i s.operands = some code) :
    accept i s = raiseError code s := by
  simp [accept, hc]

/-- The core after a command that was accepted on the operands `o` and has completed (R160, R162). -/
def commandEnd (i : Instr) (o : OperandRegs) (s : State) : State :=
  completionOf i o (begin i { s with inputs := [], operands := o })

/-- A completed command leaves no error (R160, R162). -/
theorem commandEnd_err (i : Instr) (o : OperandRegs) (s : State) : (commandEnd i o s).status.err = false := by
  cases i <;> rfl

theorem commandEnd_done (i : Instr) (o : OperandRegs) (s : State) : (commandEnd i o s).status.done = true := by
  cases i <;> rfl

theorem commandEnd_gen_results (o : OperandRegs) (s : State) : (commandEnd .gen o s).results = genResults o := rfl

theorem commandEnd_verify_matched (o : OperandRegs) (s : State) :
    (commandEnd .verify o s).status.matched = o.verifies := rfl

/-! ### The word that ends a call (R207, R208) -/

/-- On a `STATUS` read of an idle core with `DONE = 1` and `ERR = 0` the results may be read (R208). -/
theorem completedStatus_of_done {t : State} (hp : t.phase = .idle) (hd : t.status.done = true)
    (he : t.status.err = false) : completedStatus (some (readReg t .status)) = .ok (readReg t .status) := by
  refine completedStatus_eq_ok_iff.2 ⟨rfl, ?_, ?_, ?_⟩
  · exact (readReg_status_busy t).trans (by rw [hp]; rfl)
  · exact (statusWord_getLsbD t 1 (by decide)).trans hd
  · exact (statusWord_getLsbD t 2 (by decide)).trans he

/-- On a `STATUS` read of an idle core with `ERR = 1` the call fails with `ERRCODE` (R207). -/
theorem completedStatus_of_err {t : State} (hp : t.phase = .idle) (hd : t.status.done = true)
    (he : t.status.err = true) :
    completedStatus (some (readReg t .status)) = .error (.coreError t.status.errcode.toBits) := by
  have hbusy : busyOf (readReg t .status) = false := (readReg_status_busy t).trans (by rw [hp]; rfl)
  have hdone : doneOf (readReg t .status) = true := (statusWord_getLsbD t 1 (by decide)).trans hd
  have herr : errOf (readReg t .status) = true := (statusWord_getLsbD t 2 (by decide)).trans he
  have hcode : errcodeOf (readReg t .status) = t.status.errcode.toBits := statusWord_errcode t
  simp [completedStatus, hbusy, hdone, herr, hcode]

theorem matchOf_status (t : State) : matchOf (readReg t .status) = t.status.matched :=
  statusWord_getLsbD t 3 (by decide)

/-! ### Running a call -/

section Sequence

variable {α : Type} {stmts : List Stmt} {ws : List (Reg × Word)} {i : Instr} {busyReads : Nat}
  {answer : Word → State → α} {read : State → State} {s : State}
  (hexp : expandAll stmts = commandTurns ws i busyReads)
include hexp

/-- The turns of a call run to their end from any state, busy or in reset. -/
theorem runCall_next : ∃ t, runSequence stmts s = .next t ∧
    runCall stmts answer read s = .next (finish answer read (pollResult s t) t) := by
  obtain ⟨t, ht⟩ := runSequence_next (stmts := stmts) s fun turn h => by
    rw [hexp] at h
    rcases mem_commandTurns h with rfl | ⟨r, v, rfl⟩
    · rfl
    · exact wrAccess_offset_wellFormed r v
  exact ⟨t, ht, runCall_of_next ht⟩

/-- A call made while reset is asserted reads nothing (R251). -/
theorem runSequence_readLog_of_inReset (hr : s.inReset = true) {t : State} (ht : runSequence stmts s = .next t) :
    t.readLog = s.readLog := by
  rw [runSequence, runSteps_inReset _ (s := { s with inputs := expandAll stmts }) hr fun turn h => by
    rw [hexp] at h
    rcases mem_commandTurns h with rfl | ⟨r, v, rfl⟩ <;> exact ⟨nofun, nofun⟩] at ht
  rw [← Host.Outcome.next.inj ht]

/-- A call made while reset is asserted answers that no command completed, and reads no result (R208, log 25). -/
theorem runCall_of_inReset (hr : s.inReset = true) :
    ∃ t, runCall stmts answer read s = .next { answer := .error .notCompleted, state := t } ∧
      t.readLog = s.readLog := by
  obtain ⟨t, ht, hcall⟩ := runCall_next (s := s) (answer := answer) (read := read) hexp
  have hlog := runSequence_readLog_of_inReset hexp hr ht
  refine ⟨t, hcall.trans ?_, hlog⟩
  rw [pollResult_of_no_read hlog, finish_of_error t rfl]

variable (hw : OperandWrites ws) (hp : s.phase = .idle) (hr : s.inReset = false)
include hw hp hr

/-- On an idle core the writes are stored and the command is checked against them (R66, R160); `POLL` is left to run. -/
theorem runSequence_eq_poll : runSequence stmts s =
    runSteps (busyReads + 3)
      (accept i { s with inputs := [.poll busyReads], operands := s.operands.writeAll ws }) := by
  have hwrites := runSteps_writeTurns ws hw (s := { s with inputs := commandTurns ws i busyReads }) hp hr rfl
  rw [writeRegs_eq_writeAll] at hwrites
  have hcmd := step_of_commandAccess
    (s := { s with inputs := [commandAccess (encode i), .poll busyReads], operands := s.operands.writeAll ws })
    hr hp rfl (decode_encode i _)
  rw [exec_of_idle i _ (by exact hp)] at hcmd
  have hcost : scheduleCost (commandTurns ws i busyReads) = ws.length + ((busyReads + 3) + 1) := by
    rw [commandTurns, scheduleCost_append, scheduleCost_writeTurns, Nat.add_comm (busyReads + 3)]
    rfl
  rw [runSequence, hexp, hcost, runSteps_add _ _ hwrites, runSteps_succ _ hcmd]

/-- A command whose operands pass the checks completes, and `POLL` ends with the `STATUS` of its completion (R162). -/
theorem runSequence_completed (hc : commandCheck i (s.operands.writeAll ws) = none) :
    ∃ t, runSequence stmts s = .next t ∧ pollResult s t = some (readReg t .status) ∧ t.phase = .idle ∧
      t.results = (commandEnd i (s.operands.writeAll ws) s).results ∧
      t.status = (commandEnd i (s.operands.writeAll ws) s).status := by
  have hrun := runSequence_eq_poll hexp hw hp hr
  rw [accept_of_check_none hc] at hrun
  obtain ⟨t, u, hpoll, hexec, ht, -⟩ := pollEndsWithBusyZero
    (begin i { s with inputs := [.poll busyReads], operands := s.operands.writeAll ws }) i (s.operands.writeAll ws)
    busyReads [] hr rfl rfl
  obtain rfl : commandEnd i (s.operands.writeAll ws) s = u :=
    Host.Outcome.next.inj ((exec_of_busy i rfl).symm.trans hexec)
  refine ⟨t, hrun.trans hpoll, ?_⟩
  subst ht
  exact ⟨pollResult_of_read rfl, completionOf_phase i _ _, rfl, rfl⟩

/-- A command whose operands fail a check stays idle, and `POLL` reads the `STATUS` of its failure (R221). -/
theorem runSequence_failed {code : ErrCode} (hc : commandCheck i (s.operands.writeAll ws) = some code) :
    ∃ t, runSequence stmts s = .next t ∧ pollResult s t = some (readReg t .status) ∧ t.phase = .idle ∧
      t.status = s.status.failed code := by
  have hrun := runSequence_eq_poll hexp hw hp hr
  rw [accept_of_check_some hc] at hrun
  have hpoll := step_poll_of_idle
    (s := raiseError code { s with inputs := [.poll busyReads], operands := s.operands.writeAll ws }) hr hp rfl
  rw [runSteps_succ _ hpoll, runSteps_of_quiet _ rfl (by exact hp)] at hrun
  exact ⟨_, hrun, pollResult_of_read (before := []) rfl, hp, rfl⟩

/-- A call whose operands pass the checks reads its results from the completed command's state (R208). -/
theorem runCall_completed (hc : commandCheck i (s.operands.writeAll ws) = none) :
    ∃ t, runCall stmts answer read s = .next { answer := .ok (answer (readReg t .status) t), state := read t } ∧
      t.phase = .idle ∧ t.results = (commandEnd i (s.operands.writeAll ws) s).results ∧
      t.status = (commandEnd i (s.operands.writeAll ws) s).status := by
  obtain ⟨t, hrun, hlast, hphase, hresults, hstatus⟩ := runSequence_completed hexp hw hp hr hc
  have hok := completedStatus_of_done hphase (by rw [hstatus, commandEnd_done]) (by rw [hstatus, commandEnd_err])
  exact ⟨t, by rw [runCall_of_next hrun, hlast, finish_of_ok t hok], hphase, hresults, hstatus⟩

/-- A call whose operands fail a check answers the core's error code (R207). -/
theorem runCall_failed {code : ErrCode} (hc : commandCheck i (s.operands.writeAll ws) = some code) :
    ∃ t, runCall stmts answer read s = .next { answer := .error (.coreError code.toBits), state := t } := by
  obtain ⟨t, hrun, hlast, hphase, hstatus⟩ := runSequence_failed hexp hw hp hr hc
  have herr := completedStatus_of_err hphase (by rw [hstatus]; rfl) (by rw [hstatus]; rfl)
  refine ⟨t, ?_⟩
  rw [runCall_of_next hrun, hlast, finish_of_error t herr, hstatus, Status.failed_errcode]

omit hp hr in
/-- What a call answers when its command is refused or reset is asserted; from any state it ends (R207, R208). -/
theorem runCall_reports : ∃ call, runCall stmts answer read s = .next call ∧
    (s.phase = .idle → s.inReset = false → ∀ code, commandCheck i (s.operands.writeAll ws) = some code →
      call.answer = .error (.coreError code.toBits)) ∧
    (s.inReset = true → call.answer = .error .notCompleted ∧ call.state.readLog = s.readLog) := by
  obtain ⟨_, -, hcall⟩ := runCall_next (s := s) (answer := answer) (read := read) hexp
  refine ⟨_, hcall, fun hp hr code hc => ?_, fun hr => ?_⟩
  · obtain ⟨t, ht⟩ := runCall_failed (answer := answer) (read := read) hexp hw hp hr hc
    rw [Host.Outcome.next.inj (hcall.symm.trans ht)]
  · obtain ⟨t, ht, hlog⟩ := runCall_of_inReset (answer := answer) (read := read) hexp hr
    rw [Host.Outcome.next.inj (hcall.symm.trans ht)]
    exact ⟨rfl, hlog⟩

end Sequence

/-! ### What the calls load (R203, R204, R206) -/

/-- The register writes of R203 after `LDKEY`. -/
def counterWrites (digits : BitVec 4) (counter : Dword) : List (Reg × Word) :=
  [(.ctrl, callCtrl .counter digits 1#8), (.counterHi, hiWord counter), (.counterLo, loWord counter)]

/-- The register writes of R204 and R206 after `LDKEY` and `LDCAND`. -/
def timeWrites (period : Word) (digits : BitVec 4) (window : BitVec 8) (now : Dword) : List (Reg × Word) :=
  [(.ctrl, callCtrl .time digits window), (.period, period), (.timeHi, hiWord now), (.timeLo, loWord now)]

/-- The operands with `CTRL` and `COUNTER` as R203 writes them. -/
def OperandRegs.withCounter (o : OperandRegs) (digits : BitVec 4) (counter : Dword) : OperandRegs :=
  { o with
    ctrl := { alg := .sha1, csrc := .counter, ie := false, digits := digits, window := 1#8 }
    counterHi := hiWord counter
    counterLo := loWord counter }

/-- The operands with `CTRL`, `PERIOD` and `TIME` as R204 and R206 write them. -/
def OperandRegs.withTime (o : OperandRegs) (period : Word) (digits : BitVec 4) (window : BitVec 8) (now : Dword) :
    OperandRegs :=
  { o with
    ctrl := { alg := .sha1, csrc := .time, ie := false, digits := digits, window := window }
    period := period
    timeHi := hiWord now
    timeLo := loWord now }

theorem writeAll_counterWrites (o : OperandRegs) (digits : BitVec 4) (counter : Dword) :
    o.writeAll (counterWrites digits counter) = o.withCounter digits counter := by
  simp [counterWrites, OperandRegs.write, callCtrl, OperandRegs.withCounter]

theorem writeAll_timeWrites (o : OperandRegs) (period : Word) (digits : BitVec 4) (window : BitVec 8) (now : Dword) :
    o.writeAll (timeWrites period digits window now) = o.withTime period digits window now := by
  simp [timeWrites, OperandRegs.write, callCtrl, OperandRegs.withTime]

theorem operandWrites_counter (digits : BitVec 4) (counter : Dword) :
    OperandWrites (counterWrites digits counter) := by
  simp [OperandWrites, counterWrites]

theorem operandWrites_time (period : Word) (digits : BitVec 4) (window : BitVec 8) (now : Dword) :
    OperandWrites (timeWrites period digits window now) := by
  simp [OperandWrites, timeWrites]

theorem withCounter_baseCounter (o : OperandRegs) (digits : BitVec 4) (counter : Dword) :
    (o.withCounter digits counter).baseCounter = counter :=
  dwordOf_hiWord_loWord counter

theorem withTime_time (o : OperandRegs) (period : Word) (digits : BitVec 4) (window : BitVec 8) (now : Dword) :
    (o.withTime period digits window now).time = now :=
  dwordOf_hiWord_loWord now

theorem withTime_baseCounter (o : OperandRegs) (period : Word) (digits : BitVec 4) (window : BitVec 8) (now : Dword) :
    (o.withTime period digits window now).baseCounter = timeStep now period :=
  congrArg (timeStep · period) (withTime_time o period digits window now)

/-! ### The three sequences as operand writes and a command -/

/-- The register writes of `generate` (R203). -/
def generateWrites (secret : List Byte) (digits : BitVec 4) (counter : Dword) : List (Reg × Word) :=
  ldkeyWrites secret ++ counterWrites digits counter

/-- The register writes of `generate_current` (R204). -/
def currentWrites (secret : List Byte) (period : Word) (digits : BitVec 4) (now : Dword) : List (Reg × Word) :=
  ldkeyWrites secret ++ timeWrites period digits 1#8 now

/-- The register writes of `verify` (R206). -/
def verifyWrites (secret : List Byte) (candidate : List Char) (period : Word) (digits : BitVec 4)
    (window : BitVec 8) (now : Dword) : List (Reg × Word) :=
  ldkeyWrites secret ++ (ldcandWrites candidate ++ timeWrites period digits window now)

theorem operandWrites_generate (secret : List Byte) (digits : BitVec 4) (counter : Dword) :
    OperandWrites (generateWrites secret digits counter) :=
  (operandWrites_ldkey secret).append (operandWrites_counter digits counter)

theorem operandWrites_current (secret : List Byte) (period : Word) (digits : BitVec 4) (now : Dword) :
    OperandWrites (currentWrites secret period digits now) :=
  (operandWrites_ldkey secret).append (operandWrites_time period digits 1#8 now)

theorem operandWrites_verify (secret : List Byte) (candidate : List Char) (period : Word) (digits : BitVec 4)
    (window : BitVec 8) (now : Dword) : OperandWrites (verifyWrites secret candidate period digits window now) :=
  (operandWrites_ldkey secret).append
    ((operandWrites_ldcand candidate).append (operandWrites_time period digits window now))

section Expansions

variable {secret : List Byte} (h64 : secret.length ≤ 64) (digits : BitVec 4) (busyReads : Nat) (o : OperandRegs)
include h64

theorem expandAll_generateSequence (counter : Dword) :
    expandAll (generateSequence secret digits counter busyReads) =
      commandTurns (generateWrites secret digits counter) .gen busyReads := by
  rw [commandTurns, generateWrites, writeTurns_append, ← ldkeyAccesses_eq_writeTurns h64, List.append_assoc]
  rfl

theorem expandAll_generateCurrentSequence (period : Word) (now : Dword) :
    expandAll (generateCurrentSequence secret period digits now busyReads) =
      commandTurns (currentWrites secret period digits now) .gen busyReads := by
  rw [commandTurns, currentWrites, writeTurns_append, ← ldkeyAccesses_eq_writeTurns h64, List.append_assoc]
  rfl

theorem expandAll_verifySequence (candidate : List Char) (period : Word) (window : BitVec 8) (now : Dword) :
    expandAll (verifySequence secret candidate period digits window now busyReads) =
      commandTurns (verifyWrites secret candidate period digits window now) .verify busyReads := by
  rw [commandTurns, verifyWrites, writeTurns_append, ← ldkeyAccesses_eq_writeTurns h64, List.append_assoc]
  rfl

theorem writeAll_generateWrites (counter : Dword) :
    o.writeAll (generateWrites secret digits counter) = (o.withKey secret).withCounter digits counter := by
  rw [generateWrites, writeAll_append, writeAll_ldkeyWrites o h64, writeAll_counterWrites]

theorem writeAll_currentWrites (period : Word) (now : Dword) :
    o.writeAll (currentWrites secret period digits now) = (o.withKey secret).withTime period digits 1#8 now := by
  rw [currentWrites, writeAll_append, writeAll_ldkeyWrites o h64, writeAll_timeWrites]

theorem writeAll_verifyWrites (candidate : List Char) (period : Word) (window : BitVec 8) (now : Dword) :
    o.writeAll (verifyWrites secret candidate period digits window now) =
      ((o.withKey secret).withCandidate candidate).withTime period digits window now := by
  rw [verifyWrites, writeAll_append, writeAll_append, writeAll_ldkeyWrites o h64, writeAll_ldcandWrites,
    writeAll_timeWrites]

end Expansions

/-- A window of 0 to 255 goes to the core (R206). -/
theorem callVerify_of_window {window : Int} (h0 : 0 ≤ window) (h255 : window ≤ 255) (secret : List Byte)
    (candidate : List Char) (period : Word) (digits : BitVec 4) (now : Dword) (busyReads : Nat) (s : State) :
    callVerify secret candidate period digits window now busyReads s =
      runCall (verifySequence secret candidate period digits (BitVec.ofNat 8 window.toNat) now busyReads)
        (fun status _ => matchOf status) id s := by
  rw [callVerify, if_neg (by omega), if_neg (by omega)]

/-! ### The checks of a call's operands (R222 to R224) -/

theorem check_of_legal {o : OperandRegs} {n : Nat} (hk : o.keylen.toNat = n) (h1 : 1 ≤ n) (h64 : n ≤ 64)
    (hd5 : 5 ≤ o.digits) (hd9 : o.digits ≤ 9) (hperiod : o.ctrl.csrc = .time → o.period ≠ 0#32) : o.check = none :=
  o.check_eq_none_iff.2 ⟨hk ▸ h1, hk ▸ h64, hd5, hd9, hperiod⟩

theorem check_of_no_key {o : OperandRegs} (hk : o.keylen.toNat = 0) : o.check = some .badKeylen := by
  simp [OperandRegs.check, hk]

theorem check_of_bad_digits {o : OperandRegs} (hk : 1 ≤ o.keylen.toNat ∧ o.keylen.toNat ≤ 64)
    (hd : o.digits < 5 ∨ 9 < o.digits) : o.check = some .badDigits := by
  rw [OperandRegs.check, if_neg (not_not_intro hk), if_pos (by omega)]

theorem check_of_no_period {o : OperandRegs} (hk : 1 ≤ o.keylen.toNat ∧ o.keylen.toNat ≤ 64)
    (hd : 5 ≤ o.digits ∧ o.digits ≤ 9) (hs : o.ctrl.csrc = .time) (hp : o.period = 0#32) :
    o.check = some .badPeriod := by
  rw [OperandRegs.check, if_neg (not_not_intro hk), if_neg (not_not_intro hd), if_pos ⟨hs, hp⟩]

/-! ### The answers (R170, R203, R204) -/

/-- The OTP string of a secret at a counter: HMAC-SHA1, truncated, reduced and rendered (R203). -/
def otpCode (secret : List Byte) (d : Nat) (c : Dword) : List Byte :=
  codeString d ((truncated (hmac .sha1 secret (be64 c))).toNat % 10 ^ d)

/-- With `ALG = 0` the code string of the pipeline is the OTP string (R100, R170). -/
theorem codeStringAt_eq_otpCode {o : OperandRegs} (halg : o.ctrl.alg = .sha1) (c : Dword) :
    o.codeStringAt c = otpCode o.secret o.digits c := by
  rw [OperandRegs.codeStringAt, OperandRegs.codeAt, OperandRegs.hmacAt, halg]
  rfl

/-- The three reads of the code string are the bytes of `CODE_ASCII` (R43, R203). -/
theorem codeStringRead_eq (digits : BitVec 4) (t : State) :
    codeStringRead digits t = t.results.codeBytes.take digits.toNat := by
  have hwords : [readOffset t (Reg.codeAscii 0).offset, readOffset t (Reg.codeAscii 1).offset,
      readOffset t (Reg.codeAscii 2).offset] = t.results.codeAscii.toList := by
    simp only [readOffset_offset, readReg]
    apply List.ext_getElem (by simp)
    intro i hi _
    simp only [List.length_cons, List.length_nil] at hi
    interval_cases i <;> simp
  rw [codeStringRead, hwords, ResultRegs.codeBytes]

/-- After GEN the driver reads the code string of the base counter (R170, R203). -/
theorem codeStringRead_of_genResults {o : OperandRegs} {t : State} (ht : t.results = genResults o)
    (hd9 : o.digits ≤ 9) (halg : o.ctrl.alg = .sha1) :
    codeStringRead o.ctrl.digits t = otpCode o.secret o.digits o.baseCounter := by
  rw [codeStringRead_eq, ht, genResults_codeBytes o hd9, codeBuffer, ← codeStringAt_eq_otpCode halg]
  exact List.take_left' (codeString_length _ _)

/-- GEN on the loaded operands of `generate_current` gives the seconds remaining at the time written (R147, R204). -/
theorem genResults_withTime_remain (o : OperandRegs) (period : Word) (digits : BitVec 4) (window : BitVec 8)
    (now : Dword) : (genResults (o.withTime period digits window now)).remain = secondsRemaining now period := by
  have htime : (o.withTime period digits window now).ctrl.csrc = .time := rfl
  have hperiod : (o.withTime period digits window now).period = period := rfl
  rw [genResults_remain, if_pos htime, withTime_time, hperiod]

/-- The step `i` of the window around the time step of a clock (R141, R172). -/
theorem windowCounter_timeStep (now : Dword) (period : Word) (i : Int) :
    windowCounter (timeStep now period) i = BitVec.ofInt 64 (((now.toNat / period.toNat : Nat) : Int) + i) := by
  rw [windowCounter, timeStep_toNat]

/-- VERIFY on the operands of `verify`: the candidate is the code of some step of the window (R174, R206). -/
theorem verifies_loaded_iff (o : OperandRegs) {secret : List Byte} (candidate : List Char) (period : Word)
    {digits : BitVec 4} (window : BitVec 8) (now : Dword) (h64 : secret.length ≤ 64) (hd9 : digits.toNat ≤ 9) :
    (((o.withKey secret).withCandidate candidate).withTime period digits window now).verifies = true ↔
      ∃ i : Int, -(window.toNat : Int) ≤ i ∧ i ≤ window.toNat ∧
        candidate.map Char.toNat = (otpCode secret digits.toNat
          (BitVec.ofInt 64 (((now.toNat / period.toNat : Nat) : Int) + i))).map BitVec.toNat := by
  refine (verifies_iff _).trans (exists_congr fun i => and_congr_right fun _ => and_congr_right fun _ => ?_)
  have hcode := codeStringAt_eq_otpCode
    (o := ((o.withKey secret).withCandidate candidate).withTime period digits window now) rfl
    (BitVec.ofInt 64 (((now.toNat / period.toNat : Nat) : Int) + i))
  have hsecret : (((o.withKey secret).withCandidate candidate).withTime period digits window now).secret = secret :=
    withKey_secret o h64
  rw [withTime_baseCounter, windowCounter_timeStep, hcode, hsecret]
  exact candidateEquals_iff_eq (withCandidate_candBytes (o.withKey secret) candidate)
    (withCandidate_candlen_toNat (o.withKey secret) candidate) (codeString_length _ _) (hd9.trans (by decide))
    fun _ => codeString_ascii

/-! ### The obligations of the three calls -/

/-- Settles O56: GEN completes on the loaded operands, and the code string read is that of the counter. -/
theorem driverGenerateAnswersTheCode : Obligations.DriverGenerateAnswersTheCode := by
  intro secret digits counter busyReads s hp hr h1 h64 hd5 hd9
  have hops := writeAll_generateWrites h64 digits s.operands counter
  obtain ⟨t, hcall, hphase, hresults, -⟩ := runCall_completed
    (answer := fun _ => codeStringRead digits) (read := readCodeString)
    (expandAll_generateSequence h64 digits busyReads counter) (operandWrites_generate secret digits counter) hp hr
    (by rw [hops]; exact check_of_legal (withKey_keylen_toNat s.operands h64) h1 h64 hd5 hd9 nofun)
  rw [hops, commandEnd_gen_results] at hresults
  refine ⟨_, hcall, congrArg Except.ok ?_, hphase⟩
  refine (codeStringRead_of_genResults hresults hd9 rfl).trans ?_
  rw [withCounter_baseCounter]
  exact congrArg (otpCode · digits.toNat counter) (withKey_secret s.operands h64)

/-- Settles O57: GEN completes on the loaded operands with the clock as its counter source. -/
theorem driverGenerateCurrentAnswersCodeAndRemaining :
    Obligations.DriverGenerateCurrentAnswersCodeAndRemaining := by
  intro secret period digits now busyReads s hp hr h1 h64 hd5 hd9 hperiod
  have hops := writeAll_currentWrites h64 digits s.operands period now
  obtain ⟨t, hcall, -, hresults, -⟩ := runCall_completed
    (answer := fun _ t => (codeStringRead digits t, readOffset t Reg.remain.offset))
    (read := fun t => hostRead Reg.remain.offset (readCodeString t))
    (expandAll_generateCurrentSequence h64 digits busyReads period now) (operandWrites_current secret period digits now)
    hp hr (by rw [hops]; exact check_of_legal (withKey_keylen_toNat s.operands h64) h1 h64 hd5 hd9 fun _ => hperiod)
  rw [hops, commandEnd_gen_results] at hresults
  refine ⟨_, _, _, hcall, rfl, ?_, ?_⟩
  · refine (codeStringRead_of_genResults hresults hd9 rfl).trans ?_
    rw [withTime_baseCounter]
    exact congrArg (otpCode · digits.toNat (timeStep now period)) (withKey_secret s.operands h64)
  · have hremain : t.results.remain = secondsRemaining now period := by
      rw [hresults, genResults_withTime_remain]
    rw [readOffset_offset, readReg, hremain, secondsRemaining_toNat]

/-- Settles O58: VERIFY completes on the loaded operands, and `MATCH` is its search over the window. -/
theorem driverVerifyAnswersTheWindow : Obligations.DriverVerifyAnswersTheWindow := by
  intro secret candidate period digits window now busyReads s
  refine ⟨fun hneg => by rw [callVerify, if_pos hneg],
    fun hbig => by rw [callVerify, if_neg (by omega), if_pos hbig],
    fun h0 h255 hp hr h1 h64 hd5 hd9 hperiod => ?_⟩
  have hwindow : ((BitVec.ofNat 8 window.toNat).toNat : Int) = window := by
    rw [BitVec.toNat_ofNat]
    omega
  rw [callVerify_of_window h0 h255]
  generalize BitVec.ofNat 8 window.toNat = w at hwindow
  subst hwindow
  have hops := writeAll_verifyWrites h64 digits s.operands candidate period w now
  obtain ⟨t, hcall, -, -, hstatus⟩ := runCall_completed (answer := fun status _ => matchOf status) (read := id)
    (expandAll_verifySequence h64 digits busyReads candidate period w now)
    (operandWrites_verify secret candidate period digits w now) hp hr
    (by rw [hops]; exact check_of_legal (withKey_keylen_toNat s.operands h64) h1 h64 hd5 hd9 fun _ => hperiod)
  refine ⟨_, _, hcall, rfl, ?_⟩
  rw [matchOf_status, hstatus, hops, commandEnd_verify_matched]
  exact verifies_loaded_iff s.operands candidate period w now h64 hd9

/-- Settles O59: the calls of O57 and O58 at 30 seconds, 6 digits and a window of 1. -/
theorem driverDefaultsAreTheSources : Obligations.DriverDefaultsAreTheSources := by
  intro secret candidate now busyReads s hp hr h1 h64
  refine ⟨driverGenerateCurrentAnswersCodeAndRemaining secret 30#32 6#4 now busyReads s hp hr h1 h64 (by decide)
    (by decide) (by decide), ?_⟩
  obtain ⟨-, -, hverify⟩ := driverVerifyAnswersTheWindow secret candidate 30#32 6#4 1 now busyReads s
  obtain ⟨call, b, hcall, hanswer, hb⟩ := hverify (by decide) (by decide) hp hr h1 h64 (by decide) (by decide)
    (by decide)
  refine ⟨call, b, hcall, hanswer, hb.trans (exists_congr fun i => ?_)⟩
  rw [← and_assoc]
  exact and_congr_left fun _ => by omega

/-- Settles O60: the first check that the loaded operands fail names the error, and in reset no read is served. -/
theorem driverReportsTheCoreError : Obligations.DriverReportsTheCoreError := by
  intro secret candidate period digits window counter now busyReads s h64 h0 h255
  obtain ⟨gen, hgen, hgenErr, hgenReset⟩ := runCall_reports (s := s)
    (answer := fun _ => codeStringRead digits) (read := readCodeString)
    (expandAll_generateSequence h64 digits busyReads counter) (operandWrites_generate secret digits counter)
  obtain ⟨cur, hcur, hcurErr, hcurReset⟩ := runCall_reports (s := s)
    (answer := fun _ t => (codeStringRead digits t, readOffset t Reg.remain.offset))
    (read := fun t => hostRead Reg.remain.offset (readCodeString t))
    (expandAll_generateCurrentSequence h64 digits busyReads period now) (operandWrites_current secret period digits now)
  obtain ⟨ver, hver, hverErr, hverReset⟩ := runCall_reports (s := s)
    (answer := fun status _ => matchOf status) (read := id)
    (expandAll_verifySequence h64 digits busyReads candidate period (BitVec.ofNat 8 window.toNat) now)
    (operandWrites_verify secret candidate period digits (BitVec.ofNat 8 window.toNat) now)
  rw [writeAll_generateWrites h64] at hgenErr
  rw [writeAll_currentWrites h64] at hcurErr
  rw [writeAll_verifyWrites h64] at hverErr
  have hkey := withKey_keylen_toNat s.operands h64
  refine ⟨gen, cur, ver, hgen, hcur, (callVerify_of_window h0 h255 ..).trans hver, fun hp hr hnil => ?_,
    fun hp hr hne hd => ?_, fun hp hr hne hd5 hd9 hperiod => ?_, fun hr => ?_⟩
  · have hzero : (s.operands.withKey secret).keylen.toNat = 0 := by rw [hkey, hnil, List.length_nil]
    exact ⟨hgenErr hp hr .badKeylen (check_of_no_key hzero), hcurErr hp hr .badKeylen (check_of_no_key hzero),
      hverErr hp hr .badKeylen (check_of_no_key hzero)⟩
  · have hlegal := hkey ▸ And.intro (List.length_pos_iff.2 hne) h64
    exact ⟨hgenErr hp hr .badDigits (check_of_bad_digits hlegal hd),
      hcurErr hp hr .badDigits (check_of_bad_digits hlegal hd),
      hverErr hp hr .badDigits (check_of_bad_digits hlegal hd)⟩
  · have hlegal := hkey ▸ And.intro (List.length_pos_iff.2 hne) h64
    exact ⟨hcurErr hp hr .badPeriod (check_of_no_period hlegal ⟨hd5, hd9⟩ rfl hperiod),
      hverErr hp hr .badPeriod (check_of_no_period hlegal ⟨hd5, hd9⟩ rfl hperiod)⟩
  · obtain ⟨hgenAns, hgenLog⟩ := hgenReset hr
    obtain ⟨hcurAns, hcurLog⟩ := hcurReset hr
    obtain ⟨hverAns, hverLog⟩ := hverReset hr
    exact ⟨hgenAns, hcurAns, hverAns, hgenLog, hcurLog, hverLog⟩

end Sys2Proof.Machine

/-! SUPPORT. Safety and observation: no access reads the key (R38, R236), no safe state stops (R227), failure at
acceptance (R221 to R226), and what changes `IRQ` and the output `irq` (R230, R231). -/

namespace Sys2Proof.Machine

/-! ### The hidden form of a state (R38, R236) -/

@[simp] theorem Phase.hideKey_hideKey (p : Phase) : p.hideKey.hideKey = p.hideKey := by cases p <;> rfl

@[simp] theorem Phase.isBusy_hideKey (p : Phase) : p.hideKey.isBusy = p.isBusy := by cases p <;> rfl

@[simp] theorem State.hideKey_hideKey (s : State) : s.hideKey.hideKey = s.hideKey :=
  congrArg (fun p => { s.hideKey with phase := p }) (Phase.hideKey_hideKey s.phase)

theorem hideKey_phase_of_idle {s : State} (hp : s.phase = .idle) : s.hideKey.phase = .idle :=
  congrArg Phase.hideKey hp

theorem hideKey_phase_of_busy {s : State} {op : Instr} {snap : OperandRegs} (hp : s.phase = .busy op snap) :
    s.hideKey.phase = .busy op snap.hideKey :=
  congrArg Phase.hideKey hp

/-! ### Every operation of an access takes no bit of the key into anything but the key (R38, R236) -/

theorem readReg_hideKey (s : State) (r : Reg) : readReg s.hideKey r = readReg s r := by
  cases r with
  | status =>
    have hbusy : s.hideKey.phase.isBusy = s.phase.isBusy := Phase.isBusy_hideKey s.phase
    simp only [readReg, statusWord, hbusy]
    rfl
  | _ => rfl

theorem hostRead_hideKey (off : Nat) (s : State) : hostRead off s.hideKey = (hostRead off s).hideKey := by
  have hread : readOffset s.hideKey off = readOffset s off := by simp only [readOffset, readReg_hideKey]
  rw [hostRead, hread]
  rfl

/-- The checks look at `KEYLEN` and not at the key, and the snapshot is the operands (R161, R222 to R224). -/
theorem accept_hideKey (i : Instr) (s : State) : accept i s.hideKey = (accept i s).hideKey := by
  have hcheck : commandCheck i s.hideKey.operands = commandCheck i s.operands := by cases i <;> rfl
  rcases accept_cases i s with ⟨code, hc, ht⟩ | ⟨hc, ht⟩
  · rw [ht, accept_of_check_some (hcheck.trans hc)]
    rfl
  · rw [ht, accept_of_check_none (hcheck.trans hc)]
    rfl

/-- What a write stores does not depend on the key, and it is stored in the key only where it is hidden again. -/
theorem writeReg_hideKey (s : State) (r : Reg) (v : Word) :
    (writeReg s.hideKey r v).hideKey = (writeReg s r v).hideKey := by
  have hops : (s.operands.hideKey.write v r).hideKey = (s.operands.write v r).hideKey := by cases r <;> rfl
  have hphase := Phase.hideKey_hideKey s.phase
  simp only [State.hideKey, writeReg, hops, hphase]

theorem hostWrite_hideKey {off : Nat} {v : Word} {s t : State} (ha : off % 4 = 0) (h : hostWrite off v s = .next t) :
    ∃ u, hostWrite off v s.hideKey = .next u ∧ u.hideKey = t.hideKey := by
  rcases hostWrite_cases h with ⟨hr, rfl⟩ | ⟨hr, ⟨op, snap, hp⟩, rfl⟩ | ⟨hr, hp, ht⟩ | ⟨r, hr, hs, hc, hp, rfl⟩ |
    ⟨hr, hp, rfl⟩
  · obtain rfl := (regAt_eq_some_iff ha).1 hr
    exact ⟨_, hostWrite_status v _, State.hideKey_hideKey (acknowledge s v)⟩
  · exact ⟨_, hostWrite_of_busy v (hideKey_phase_of_busy hp) hr, State.hideKey_hideKey (overrun s)⟩
  · obtain rfl := (regAt_eq_some_iff ha).1 hr
    have hidle := hideKey_phase_of_idle hp
    rw [hostWrite_cmd_of_idle v hidle]
    rcases ht with ⟨i, hd, rfl⟩ | ⟨⟨e, hd⟩, rfl⟩
    · refine ⟨_, (issueCommand_ok _ hd).trans (exec_of_idle i _ hidle), ?_⟩
      rw [accept_hideKey, State.hideKey_hideKey]
    · exact ⟨_, issueCommand_error _ hd, State.hideKey_hideKey (raiseError .illegalCmd s)⟩
  · obtain rfl := (regAt_eq_some_iff ha).1 hr
    exact ⟨_, hostWrite_reg_of_idle r v (hideKey_phase_of_idle hp) hs hc, writeReg_hideKey s r v⟩
  · exact ⟨_, hostWrite_reserved_of_idle v (hideKey_phase_of_idle hp) hr, State.hideKey_hideKey _⟩

/-- A performed access on the hidden form of a state is performed too, and ends in the same hidden form. -/
theorem hostAccess_hideKey {a : Access} {s t : State} (h : hostAccess a s = .next t) :
    ∃ u, hostAccess a s.hideKey = .next u ∧ u.hideKey = t.hideKey := by
  obtain ⟨off, hw, ho, ha, ⟨hk, rfl⟩ | ⟨v, hk, hwrite⟩⟩ := hostAccess_cases h
  · refine ⟨hostRead off s.hideKey, by simp [hostAccess, hw, ho, ha, hk], ?_⟩
    rw [hostRead_hideKey, State.hideKey_hideKey]
  · obtain ⟨u, hu, heq⟩ := hostWrite_hideKey ha hwrite
    exact ⟨u, by simp [hostAccess, hw, ho, ha, hk, hu], heq⟩

/-- Which bus error an access gets depends on the access alone (R61, R62). -/
theorem hostAccess_fault_congr {a : Access} {s : State} {f : Fault} (h : hostAccess a s = .fault f) (t : State) :
    hostAccess a t = .fault f := by
  unfold hostAccess at h ⊢
  split_ifs at h ⊢ with hw
  · exact h
  · cases ho : a.target.windowOffset with
    | none => simpa only [ho] using h
    | some off =>
      simp only [ho] at h ⊢
      split_ifs at h ⊢ with ha
      · exact h
      · cases hk : a.kind with
        | read => simp [hk] at h
        | write v =>
          obtain ⟨u, hu⟩ := hostWrite_next off v s
          simp [hk, hu] at h

/-- Settles O49: both states have one hidden form, and each access on either ends as it does on that form. -/
theorem noAccessRevealsTheKey : Obligations.NoAccessRevealsTheKey := by
  intro s1 s2 a hsame
  refine ⟨fun t1 h1 => ?_, fun f hf => hostAccess_fault_congr hf s2⟩
  obtain ⟨off, hw, ho, ha, -⟩ := hostAccess_cases h1
  obtain ⟨t2, h2⟩ := hostAccess_next s2 hw ho ha
  obtain ⟨u1, hu1, heq1⟩ := hostAccess_hideKey h1
  obtain ⟨u2, hu2, heq2⟩ := hostAccess_hideKey h2
  obtain rfl : u1 = u2 := Host.Outcome.next.inj (hu1.symm.trans (hsame ▸ hu2))
  have hhide : t1.hideKey = t2.hideKey := heq1.symm.trans heq2
  have hlog : t1.hideKey.readLog = t2.hideKey.readLog := congrArg State.readLog hhide
  exact ⟨t2, h2, hhide, hlog⟩

/-! ### No safe state stops (R227) -/

/-- A turn whose access the bus performs never stops the machine. -/
theorem agentTurn_next {i : Input} (s : State) (hw : i.wellFormed = true) : ∃ t, agentTurn i s = .next t := by
  cases i with
  | poll n =>
    simp only [agentTurn]
    split_ifs
    · exact ⟨s, rfl⟩
    · exact ⟨hostPoll n s, rfl⟩
  | _ =>
    obtain ⟨t, ht, -⟩ := agentTurn_taken (s := s) hw (by simp)
    exact ⟨t, ht⟩

theorem step_next {s : State} (hs : s.ScheduleOk) : ∃ t, step s = .next t := by
  cases hi : s.inputs with
  | nil =>
    rw [step_of_nil hi, quietTurn]
    split_ifs
    · exact ⟨s, rfl⟩
    · exact sequencerTurn_next s
  | cons i rest =>
    rw [step_of_cons hi]
    exact agentTurn_next _ (hs i (by simp [hi]))

theorem State.ScheduleOk.congr {s t : State} (hs : s.ScheduleOk) (h : t.inputs = s.inputs) : t.ScheduleOk := by
  rwa [State.ScheduleOk, h]

theorem afterTurn_scheduleOk {s : State} (hs : s.ScheduleOk) : (afterTurn s).ScheduleOk :=
  fun i hi => hs i (List.mem_of_mem_tail hi)

/-- The turns that a `POLL` lists for its loop are no accesses (R88, log 9). -/
theorem hostPoll_scheduleOk (n : Nat) {s : State} (hs : s.ScheduleOk) : (hostPoll n s).ScheduleOk := by
  rcases hostPoll_cases n s with ⟨-, h⟩ | ⟨_, _, -, ⟨-, h⟩ | ⟨m, -, h⟩⟩
  · exact hs.congr (by rw [h]; rfl)
  · rw [h]
    exact List.forall_mem_cons.2 ⟨rfl, List.forall_mem_cons.2 ⟨rfl, hs⟩⟩
  · rw [h]
    exact List.forall_mem_cons.2 ⟨rfl, hs⟩

theorem step_scheduleOk {s t : State} (hs : s.ScheduleOk) (hstep : step s = .next t) : t.ScheduleOk := by
  have ha : (afterTurn s).ScheduleOk := afterTurn_scheduleOk hs
  rcases step_cases hstep with ⟨rest, -, rfl⟩ | ⟨rest, -, rfl⟩ | ⟨-, rfl⟩ | ⟨-, a, rest, -, h⟩ |
    ⟨-, n, rest, -, rfl⟩ | ⟨-, -, h⟩
  · exact ha
  · rcases resetRelease_cases (afterTurn s) with ⟨-, he⟩ | ⟨-, he⟩
    · exact ha.congr (by rw [he]; rfl)
    · rwa [he]
  · exact ha
  · exact ha.congr (hostAccess_schedule h).1
  · exact hostPoll_scheduleOk n ha
  · rcases sequencerTurn_cases h with ⟨-, rfl⟩ | ⟨op, snap, -, rfl⟩
    · exact ha
    · exact ha.congr (completionOf_inputs op snap _)

/-- Settles O42: a step of a safe state answers, and keeps both the invariant and the schedule. -/
theorem safeStatesNeverStop : Obligations.SafeStatesNeverStop := by
  intro s ⟨hinv, hsched⟩
  obtain ⟨t, ht⟩ := step_next hsched
  exact ⟨t, ht, everyStepKeepsTheInvariant s t hinv ht, step_scheduleOk hsched ht⟩

/-! ### Failure at acceptance (R221 to R226) -/

theorem check_of_bad_keylen {o : OperandRegs} (hk : o.keylen.toNat = 0 ∨ 64 < o.keylen.toNat) :
    o.check = some .badKeylen := by
  rw [OperandRegs.check, if_pos (by omega)]

/-- An illegal word fails whatever the operands hold (R82, R225). -/
theorem issueCommand_of_illegal {v : Word} (s : State) (h : v.toNat % 16 = 0 ∨ 4 ≤ v.toNat % 16) :
    issueCommand v s = .next (raiseError .illegalCmd s) :=
  issueCommand_error s ((decode_eq_illegalOp_iff v).2 ((opField_ne_opcode_iff v).2 h))

/-- GEN and VERIFY fail with the first of their checks that fails (R226). -/
theorem issueCommand_of_check_some {v : Word} {s : State} {e : ErrCode} (hp : s.phase = .idle)
    (hv : v.toNat % 16 = 1 ∨ v.toNat % 16 = 2) (hc : s.operands.check = some e) :
    issueCommand v s = .next (raiseError e s) := by
  rcases hv with hgen | hverify
  · rw [issueCommand_ok s ((decode_eq_ok_iff_mod v .gen).2 hgen)]
    exact exec_failed hp hc
  · rw [issueCommand_ok s ((decode_eq_ok_iff_mod v .verify).2 hverify)]
    exact exec_failed hp hc

/-- A write to `CMD` that fails with code `e` changes `STATUS` alone and leaves the core idle (R221). -/
theorem hostAccess_cmd_failed {v : Word} {s : State} {e : ErrCode} {code : Nat} (hp : s.phase = .idle)
    (he : e.toBits.toNat = code) (h : issueCommand v s = .next (raiseError e s)) :
    ∃ t, hostAccess (write32 0x0C v) s = .next t ∧
      readReg t .status = (readReg s .status &&& 0x10#32) ||| 0x26#32 ||| BitVec.ofNat 32 (code * 256) ∧
      (∀ off, off ≠ 0x10 → off % 4 = 0 → readOffset t off = readOffset s off) ∧
      t = { s with status := t.status } ∧ t.phase = .idle :=
  ⟨raiseError e s, (hostAccess_cmd_of_idle v s hp).trans h, he ▸ readReg_raiseError_status e s hp,
    readOffset_eq_of_not_status fun _ hq => readReg_congr rfl rfl hq, rfl, hp⟩

/-- Settles O26: each clause makes one check the first that fails. -/
theorem firstFailingCheckIsReported : Obligations.FirstFailingCheckIsReported := by
  rintro s v code hp (⟨rfl, hillegal⟩ | ⟨hv, ⟨rfl, hk⟩ | ⟨rfl, h1, h64, hd⟩ | ⟨rfl, h1, h64, hd5, hd9, hs, hz⟩⟩)
  · exact hostAccess_cmd_failed hp rfl (issueCommand_of_illegal s hillegal)
  · exact hostAccess_cmd_failed hp rfl (issueCommand_of_check_some hp hv (check_of_bad_keylen hk))
  · exact hostAccess_cmd_failed hp rfl (issueCommand_of_check_some hp hv (check_of_bad_digits ⟨h1, h64⟩ hd))
  · exact hostAccess_cmd_failed hp rfl
      (issueCommand_of_check_some hp hv (check_of_no_period ⟨h1, h64⟩ ⟨hd5, hd9⟩ hs hz))

/-! ### What changes `IRQ` (R231) -/

@[simp] theorem completionOf_irq (i : Instr) (snap : OperandRegs) (s : State) :
    (completionOf i snap s).status.irq = true := by cases i <;> rfl

@[simp] theorem completionOf_done (i : Instr) (snap : OperandRegs) (s : State) :
    (completionOf i snap s).status.done = true := by cases i <;> rfl

/-- A command word that sets `IRQ` at acceptance has failed (R160, R221). -/
theorem accept_changes_irq {i : Instr} {s : State} (h : (accept i s).status.irq ≠ s.status.irq) :
    ∃ code, accept i s = raiseError code s := by
  rcases accept_cases i s with ⟨code, -, ht⟩ | ⟨-, ht⟩
  · exact ⟨code, ht⟩
  · simp [ht] at h

/-- An access that changes `IRQ` is an acknowledgement with bit 5 written 1, or a `CMD` write that fails while idle. -/
theorem hostAccess_changes_irq {a : Access} {s t : State} (h : hostAccess a s = .next t)
    (hne : t.status.irq ≠ s.status.irq) :
    ∃ v, a.kind = .write v ∧
      ((a.target.windowOffset = some 0x10 ∧ v.getLsbD 5 = true ∧ t = acknowledge s v) ∨
        (a.target.windowOffset = some 0x0C ∧ s.phase = .idle ∧ ∃ code, t = raiseError code s)) := by
  rcases hostAccess_effect h with ⟨v, -, rfl⟩ | ⟨v, hk, ho, rfl⟩ | ⟨v, off, op, snap, -, -, -, -, rfl⟩ |
    ⟨hp, ⟨v, i, hk, ho, -, rfl⟩ | ⟨v, e, hk, ho, -, rfl⟩ | ⟨v, r, -, -, -, rfl⟩ | rfl⟩
  · exact absurd rfl hne
  · refine ⟨v, hk, .inl ⟨ho, ?_, rfl⟩⟩
    by_contra hbit
    apply hne
    rw [acknowledge_status, Status.acknowledge_irq, Bool.eq_false_of_not_eq_true hbit, Bool.not_false, Bool.and_true]
  · exact absurd rfl hne
  · exact ⟨v, hk, .inr ⟨ho, hp, accept_changes_irq hne⟩⟩
  · exact ⟨v, hk, .inr ⟨ho, hp, .illegalCmd, rfl⟩⟩
  · exact absurd rfl hne
  · exact absurd rfl hne

/-- Settles O45: of all that a step can do, reset clears `IRQ`, a completion sets it, and an access changes it as
an acknowledgement or as a `CMD` write that fails. -/
theorem irqChangesOnlyAsStated : Obligations.IrqChangesOnlyAsStated := by
  intro s t hstep
  by_cases hne : t.status.irq = s.status.irq
  · exact ⟨fun hs ht => by simp [hs, ht] at hne, fun hs ht => by simp [hs, ht] at hne⟩
  rcases step_cases hstep with ⟨rest, hi, rfl⟩ | ⟨rest, hi, rfl⟩ | ⟨-, rfl⟩ | ⟨hr, a, rest, hi, h⟩ |
    ⟨-, n, rest, -, rfl⟩ | ⟨hr, hi, h⟩
  · exact ⟨fun _ _ => ⟨rest, .inl hi⟩, fun _ ht => by simp [Status.reset] at ht⟩
  · rcases resetRelease_cases (afterTurn s) with ⟨hr, he⟩ | ⟨-, he⟩
    · exact ⟨fun _ _ => ⟨rest, .inr (.inl ⟨hi, hr⟩)⟩, fun _ ht => by simp [he, Status.reset] at ht⟩
    · simp [he] at hne
  · exact absurd rfl hne
  · obtain ⟨v, hk, ⟨ho, hbit, rfl⟩ | ⟨ho, hp, code, rfl⟩⟩ := hostAccess_changes_irq h hne
    · exact ⟨fun _ _ => ⟨rest, .inr (.inr ⟨hr, a, v, hi, ho, hk, hbit⟩)⟩, fun hs ht => by simp [hs] at ht⟩
    · exact ⟨fun _ ht => by simp at ht, fun _ _ => ⟨hr, .inr ⟨a, v, rest, hp, hi, ho, hk, hp, rfl, rfl⟩⟩⟩
  · simp at hne
  · rcases sequencerTurn_cases h with ⟨-, rfl⟩ | ⟨op, snap, hp, rfl⟩
    · exact absurd rfl hne
    · exact ⟨fun _ ht => by simp at ht,
        fun _ _ => ⟨hr, .inl ⟨op, snap, hp, hi, completionOf_phase op snap _, completionOf_done op snap _⟩⟩⟩

/-! ### The interrupt output (R230) -/

/-- Settles O18: the two bits are the fields that `irq` joins. -/
theorem interruptOutputIsIrqAndEnable : Obligations.InterruptOutputIsIrqAndEnable := by
  intro s
  have hirq : (readReg s .status).getLsbD 5 = s.status.irq := statusWord_getLsbD s 5 (by decide)
  have hie : (readReg s .ctrl).getLsbD 2 = s.operands.ctrl.ie := congrArg Ctrl.ie (Ctrl.ofWord_toWord s.operands.ctrl)
  rw [hirq, hie, State.irq]

end Sys2Proof.Machine

/-! SUPPORT. Reset (R250 to R253): the values it leaves as the host reads them, and a run while it is asserted. -/

namespace Sys2Proof.Machine

/-! ### The values after reset (R252) -/

/-- Every register but `ID`, `VERSION`, `CTRL` and `PERIOD` reads 0 after reset (R252). -/
theorem readReg_reset_eq_zero {r : Reg} (hid : r ≠ .id) (hver : r ≠ .version) (hctrl : r ≠ .ctrl)
    (hper : r ≠ .period) : readReg State.reset r = 0#32 := by
  cases r with
  | id => exact absurd rfl hid
  | version => exact absurd rfl hver
  | ctrl => exact absurd rfl hctrl
  | period => exact absurd rfl hper
  | codeAscii i => exact readReg_of_results_zero rfl (by simp)
  | cand i => exact Vector.getElem_replicate i.isLt
  | digest i => exact readReg_of_results_zero rfl (by simp)
  | _ => rfl

/-- Settles O1: an offset with no register reads 0, and so does every register but the four with a value of their own. -/
theorem resetHoldsTheStatedValues : Obligations.ResetHoldsTheStatedValues := by
  refine ⟨fun off _ ha => ?_, bytesOfWords_replicate_zero 16, rfl⟩
  split_ifs with hid hver hctrl hper
  · exact hid ▸ rfl
  · exact hver ▸ rfl
  · exact hctrl ▸ rfl
  · exact hper ▸ rfl
  · cases hr : regAt off with
    | none => exact readOffset_reserved _ hr
    | some r =>
      obtain rfl := (regAt_eq_some_iff ha).1 hr
      rw [readOffset_offset]
      exact readReg_reset_eq_zero (fun h => hid (h ▸ rfl)) (fun h => hver (h ▸ rfl)) (fun h => hctrl (h ▸ rfl))
        (fun h => hper (h ▸ rfl))

/-- Settles O40: the reset values meet the invariant. -/
theorem invariantHoldsAtReset : Obligations.InvariantHoldsAtReset := inv_of_reset_values rfl rfl rfl rfl

/-! ### A run while reset is asserted (R250, R251) -/

/-- A turn of the host or of the sequencer passes without effect while reset is asserted (R251, log 5). -/
theorem step_of_inReset {s : State} {i : Input} {rest : List Input} (hr : s.inReset = true)
    (hi : s.inputs = i :: rest) (hne : i ≠ .resetAssert ∧ i ≠ .resetRelease) :
    step s = .next { s with inputs := rest } := by
  rw [step_of_cons hi]
  obtain ⟨hassert, hrelease⟩ := hne
  cases i with
  | resetAssert => exact absurd rfl hassert
  | resetRelease => exact absurd rfl hrelease
  | access a => exact if_pos hr
  | poll n => exact if_pos hr
  | sequencer => exact if_pos hr

/-- So does a list of such turns, whatever is listed after them: a later release is still to come. -/
theorem runSteps_turns_of_inReset {turns rest : List Input} {s : State}
    (hturns : ∀ i ∈ turns, i ≠ .resetAssert ∧ i ≠ .resetRelease) (hr : s.inReset = true)
    (hi : s.inputs = turns ++ rest) : runSteps turns.length s = .next { s with inputs := rest } := by
  induction turns generalizing s with
  | nil => exact congrArg (fun l => Host.Outcome.next { s with inputs := l }) hi
  | cons i turns ih =>
    obtain ⟨hne, hturns⟩ := List.forall_mem_cons.1 hturns
    rw [List.length_cons, runSteps_succ _ (step_of_inReset hr hi hne)]
    exact ih hturns hr rfl

/-- Asserting reset in any state clears every register and abandons a running command (R250). -/
theorem step_of_resetAssert {s : State} {rest : List Input} (hi : s.inputs = .resetAssert :: rest) :
    step s = .next { resetAssert s with inputs := rest } := step_of_cons hi

/-- On the release of an asserted reset the core is as after reset, with the turns still listed and what the host has
read (R250, log 4). -/
theorem step_of_resetRelease {s : State} {rest : List Input} (hr : s.inReset = true)
    (hi : s.inputs = .resetRelease :: rest) :
    step s = .next { State.reset with inputs := rest, readLog := s.readLog } := by
  rw [step_of_cons hi]
  exact congrArg Host.Outcome.next (if_pos hr)

/-- Settles O2: the assertion clears the registers, the turns listed before the release pass without effect, and the
release leaves the reset state. -/
theorem resetAbandonsTheCommandAndHoldsTheCore : Obligations.ResetAbandonsTheCommandAndHoldsTheCore := by
  intro s turns rest hturns hi
  have hassert := runSteps_succ 0 (step_of_resetAssert hi)
  have hheld := runSteps_turns_of_inReset (s := { resetAssert s with inputs := turns ++ .resetRelease :: rest })
    hturns rfl rfl
  exact ⟨_, _, (runSteps_add 1 _ hassert).trans hheld, rfl, rfl, rfl, rfl, rfl, rfl, step_of_resetRelease rfl rfl, rfl⟩

end Sys2Proof.Machine
